-- ==== Sys2Proof/Word.lean ====
section
/-! DEFINITION. Word.lean: the words NIMQ moves (00_scope.md R7, 30_encoding.md R60, R82). -/

namespace Sys2Proof

/-- A byte: an operand byte, an index byte, a byte of the output stream. -/
abbrev Byte := BitVec 8

/-- A command word: 40 bits, opcode in bits 39 to 32, operand field in bits 31 to 0
(30_encoding.md R60; `CMD_W` = 40, 00_scope.md R6). -/
abbrev CommandWord := BitVec 40

/-- An RGBA8888 sample, the operand of `IPIX` (30_encoding.md R82). -/
abbrev Sample := BitVec 32

end Sys2Proof
end

