-- ==== Sys2Proof/Syntax.lean ====
section
/-! DEFINITION. Syntax.lean: the fifteen commands of 30_encoding.md R63, one constructor a row of
spec/opcode_table.json, with the operands of their formats (R61). -/

namespace Sys2Proof

/-- The seven operand formats of 30_encoding.md R61. -/
inductive Format where
  | none | byte | flag | count | colour | dims | pixel
  deriving DecidableEq, Repr

/-- A command of NIMQ. Operands are unsigned fields of `arg` as they stand (30_encoding.md R62), so each has the
width of its field. -/
inductive Instr where
  /-- `QRED3 b` (40_quantizer.md R100) -/
  | qred3 (b : Byte)
  /-- `QRED2 b` (40_quantizer.md R101) -/
  | qred2 (b : Byte)
  /-- `QNEAR r, g, b` (40_quantizer.md R102) -/
  | qnear (r g b : Byte)
  /-- `PDEF` (41_palette.md R112) -/
  | pdef
  /-- `PLDNIP` (41_palette.md R113) -/
  | pldnip
  /-- `DIN b` (41_palette.md R114) -/
  | din (b : Byte)
  /-- `PBEGIN n` (41_palette.md R116) -/
  | pbegin (n : BitVec 16)
  /-- `PADD r, g, b` (41_palette.md R117) -/
  | padd (r g b : Byte)
  /-- `PEND` (41_palette.md R118) -/
  | pend
  /-- `PSTNIP x` (41_palette.md R121) -/
  | pstnip (x : Bool)
  /-- `PGET i` (41_palette.md R122) -/
  | pget (i : Byte)
  /-- `TSET v` (41_palette.md R123) -/
  | tset (v : Byte)
  /-- `IBEGIN8 w, h` (42_bitmap.md R141) -/
  | ibegin8 (w h : BitVec 16)
  /-- `IBEGIN4 w, h` (42_bitmap.md R142) -/
  | ibegin4 (w h : BitVec 16)
  /-- `IPIX sample` (42_bitmap.md R143) -/
  | ipix (sample : Sample)
  deriving DecidableEq, Repr

/-- The command's operand format (30_encoding.md R63, column "format"). -/
def Instr.format : Instr → Format
  | .qred3 _ => .byte
  | .qred2 _ => .byte
  | .qnear _ _ _ => .colour
  | .pdef => .none
  | .pldnip => .none
  | .din _ => .byte
  | .pbegin _ => .count
  | .padd _ _ _ => .colour
  | .pend => .none
  | .pstnip _ => .flag
  | .pget _ => .byte
  | .tset _ => .byte
  | .ibegin8 _ _ => .dims
  | .ibegin4 _ _ => .dims
  | .ipix _ => .pixel

/-- The command's mnemonic (30_encoding.md R63). -/
def Instr.mnemonic : Instr → String
  | .qred3 _ => "QRED3"
  | .qred2 _ => "QRED2"
  | .qnear _ _ _ => "QNEAR"
  | .pdef => "PDEF"
  | .pldnip => "PLDNIP"
  | .din _ => "DIN"
  | .pbegin _ => "PBEGIN"
  | .padd _ _ _ => "PADD"
  | .pend => "PEND"
  | .pstnip _ => "PSTNIP"
  | .pget _ => "PGET"
  | .tset _ => "TSET"
  | .ibegin8 _ _ => "IBEGIN8"
  | .ibegin4 _ _ => "IBEGIN4"
  | .ipix _ => "IPIX"

/-- The operands as numbers, in the assembler's order (30_encoding.md R61 column "operands", R67). -/
def Instr.operands : Instr → List Nat
  | .qred3 b => [b.toNat]
  | .qred2 b => [b.toNat]
  | .qnear r g b => [r.toNat, g.toNat, b.toNat]
  | .pdef => []
  | .pldnip => []
  | .din b => [b.toNat]
  | .pbegin n => [n.toNat]
  | .padd r g b => [r.toNat, g.toNat, b.toNat]
  | .pend => []
  | .pstnip x => [x.toNat]
  | .pget i => [i.toNat]
  | .tset v => [v.toNat]
  | .ibegin8 w h => [w.toNat, h.toNat]
  | .ibegin4 w h => [w.toNat, h.toNat]
  | .ipix s => [s.toNat]

end Sys2Proof
end

