-- ==== Sys2Proof/WellFormed.lean ====
section
/-! DEFINITION. WellFormed.lean: what it takes for numbers to be the operands of a command: as many as the format
has, each fitting its field ("An operand that does not fit its field is an assembly error, not a truncation",
30_encoding.md R67). An `Instr` carries its operands at their fields' widths, so every `Instr` is well formed; the
check is what the assembler of Machine/Assembler.lean refuses ill-formed lines by. -/

namespace Sys2Proof

/-- The widths of a format's operands, in order (30_encoding.md R61). -/
def Format.widths : Format → List Nat
  | .none => []
  | .byte => [8]
  | .flag => [1]
  | .count => [16]
  | .colour => [8, 8, 8]
  | .dims => [16, 16]
  | .pixel => [32]

/-- Each number fits the field of the width at its place, and there are as many numbers as fields. -/
def operandsFit : List Nat → List Nat → Bool
  | [], [] => true
  | w :: ws, v :: vs => decide (v < 2 ^ w) && operandsFit ws vs
  | [], _ :: _ => false
  | _ :: _, [] => false

/-- The operands of a command are of its format. -/
def Instr.wellFormed (i : Instr) : Bool :=
  operandsFit i.format.widths i.operands

end Sys2Proof
end

