-- ==== Sys2Proof/Decode.lean ====
section
/-! DEFINITION. Decode.lean: the command word (30_encoding.md Part A). The opcode map of R63 as rows of match and
mask, the decoder (total on every 40-bit word, rejecting by name), and the encoder written from the same formats. -/

namespace Sys2Proof

/-- A row of the opcode map: a word selects it when `(cw & mask) = match` (30_encoding.md R63). -/
structure OpcodeRow where
  opcode : Byte
  mnemonic : String
  format : Format
  matchBits : CommandWord
  mask : CommandWord
  deriving DecidableEq, Repr

/-- The opcode map of 30_encoding.md R63. -/
def opcodeRows : List OpcodeRow := [
  ⟨0x01, "QRED3", .byte, 0x0100000000, 0xFFFFFFFF00⟩,
  ⟨0x02, "QRED2", .byte, 0x0200000000, 0xFFFFFFFF00⟩,
  ⟨0x03, "QNEAR", .colour, 0x0300000000, 0xFFFF000000⟩,
  ⟨0x10, "PDEF", .none, 0x1000000000, 0xFFFFFFFFFF⟩,
  ⟨0x11, "PLDNIP", .none, 0x1100000000, 0xFFFFFFFFFF⟩,
  ⟨0x12, "DIN", .byte, 0x1200000000, 0xFFFFFFFF00⟩,
  ⟨0x13, "PBEGIN", .count, 0x1300000000, 0xFFFFFF0000⟩,
  ⟨0x14, "PADD", .colour, 0x1400000000, 0xFFFF000000⟩,
  ⟨0x15, "PEND", .none, 0x1500000000, 0xFFFFFFFFFF⟩,
  ⟨0x16, "PSTNIP", .flag, 0x1600000000, 0xFFFFFFFFFE⟩,
  ⟨0x17, "PGET", .byte, 0x1700000000, 0xFFFFFFFF00⟩,
  ⟨0x18, "TSET", .byte, 0x1800000000, 0xFFFFFFFF00⟩,
  ⟨0x20, "IBEGIN8", .dims, 0x2000000000, 0xFF00000000⟩,
  ⟨0x21, "IBEGIN4", .dims, 0x2100000000, 0xFF00000000⟩,
  ⟨0x22, "IPIX", .pixel, 0x2200000000, 0xFF00000000⟩]

/-- Why a word is no command; both raise `ParameterError` (30_encoding.md R64, 60_exceptions.md R162). -/
inductive Reject where
  /-- the opcode is none of the fifteen -/
  | undefinedOpcode
  /-- a reserved operand bit is set (R65) -/
  | reservedBitSet
  deriving DecidableEq, Repr

/-- `op`, bits 39 to 32 (R60). -/
def opOf (cw : CommandWord) : Byte := cw.extractLsb' 32 8

/-- `arg`, bits 31 to 0 (R60). -/
def argOf (cw : CommandWord) : BitVec 32 := cw.extractLsb' 0 32

/-- Format N: all 32 operand bits are reserved (R61, R65). -/
def readNone (arg : BitVec 32) (i : Instr) : Except Reject Instr :=
  if arg = 0#32 then .ok i else .error .reservedBitSet

/-- Format B: bits 31 to 8 reserved (R61, R65). -/
def readByte (arg : BitVec 32) (mk : Byte → Instr) : Except Reject Instr :=
  if arg.extractLsb' 8 24 = 0#24 then .ok (mk (arg.extractLsb' 0 8)) else .error .reservedBitSet

/-- Format F: bits 31 to 1 reserved (R61, R65). -/
def readFlag (arg : BitVec 32) (mk : Bool → Instr) : Except Reject Instr :=
  if arg.extractLsb' 1 31 = 0#31 then .ok (mk (arg.getLsbD 0)) else .error .reservedBitSet

/-- Format H: bits 31 to 16 reserved (R61, R65). -/
def readCount (arg : BitVec 32) (mk : BitVec 16 → Instr) : Except Reject Instr :=
  if arg.extractLsb' 16 16 = 0#16 then .ok (mk (arg.extractLsb' 0 16)) else .error .reservedBitSet

/-- Format C: bits 31 to 24 reserved; `r` in bits 7 to 0, `g` in 15 to 8, `b` in 23 to 16 (R61, R65). -/
def readColour (arg : BitVec 32) (mk : Byte → Byte → Byte → Instr) : Except Reject Instr :=
  if arg.extractLsb' 24 8 = 0#8 then
    .ok (mk (arg.extractLsb' 0 8) (arg.extractLsb' 8 8) (arg.extractLsb' 16 8))
  else .error .reservedBitSet

/-- Format D: no reserved bits; `w` in bits 15 to 0, `h` in bits 31 to 16 (R61, R65). -/
def readDims (arg : BitVec 32) (mk : BitVec 16 → BitVec 16 → Instr) : Except Reject Instr :=
  .ok (mk (arg.extractLsb' 0 16) (arg.extractLsb' 16 16))

/-- The decoder: one fixed length, one layout, no state (30_encoding.md R60, R63 to R66). -/
def decode (cw : CommandWord) : Except Reject Instr :=
  match (opOf cw).toNat with
  | 0x01 => readByte (argOf cw) .qred3
  | 0x02 => readByte (argOf cw) .qred2
  | 0x03 => readColour (argOf cw) .qnear
  | 0x10 => readNone (argOf cw) .pdef
  | 0x11 => readNone (argOf cw) .pldnip
  | 0x12 => readByte (argOf cw) .din
  | 0x13 => readCount (argOf cw) .pbegin
  | 0x14 => readColour (argOf cw) .padd
  | 0x15 => readNone (argOf cw) .pend
  | 0x16 => readFlag (argOf cw) .pstnip
  | 0x17 => readByte (argOf cw) .pget
  | 0x18 => readByte (argOf cw) .tset
  | 0x20 => readDims (argOf cw) .ibegin8
  | 0x21 => readDims (argOf cw) .ibegin4
  | 0x22 => .ok (.ipix (argOf cw))
  | _ => .error .undefinedOpcode

/-- The opcode of a command (30_encoding.md R63, column "op"). -/
def opcodeOf : Instr → Byte
  | .qred3 _ => 0x01
  | .qred2 _ => 0x02
  | .qnear _ _ _ => 0x03
  | .pdef => 0x10
  | .pldnip => 0x11
  | .din _ => 0x12
  | .pbegin _ => 0x13
  | .padd _ _ _ => 0x14
  | .pend => 0x15
  | .pstnip _ => 0x16
  | .pget _ => 0x17
  | .tset _ => 0x18
  | .ibegin8 _ _ => 0x20
  | .ibegin4 _ _ => 0x21
  | .ipix _ => 0x22

/-- Format B as an operand field. -/
def argByte (b : Byte) : BitVec 32 := 0#24 ++ b

/-- Formats C and P put red, green and blue in the same places (30_encoding.md R61). -/
def argColour (r g b : Byte) : BitVec 32 := 0#8 ++ b ++ g ++ r

/-- The operand field of a command (30_encoding.md R61). -/
def argFor : Instr → BitVec 32
  | .qred3 b => argByte b
  | .qred2 b => argByte b
  | .qnear r g b => argColour r g b
  | .pdef => 0#32
  | .pldnip => 0#32
  | .din b => argByte b
  | .pbegin n => 0#16 ++ n
  | .padd r g b => argColour r g b
  | .pend => 0#32
  | .pstnip x => 0#31 ++ BitVec.ofBool x
  | .pget i => argByte i
  | .tset v => argByte v
  | .ibegin8 w h => h ++ w
  | .ibegin4 w h => h ++ w
  | .ipix sample => sample

/-- The word of a command: opcode above operand field (30_encoding.md R60). -/
def encode (i : Instr) : CommandWord := opcodeOf i ++ argFor i

/-- The low `nbits` bits of a number as a command word; the word is one 40-bit value and no memory object, so it has
no byte order (20_memory.md R47). -/
def tableWord (nbits w : Nat) : CommandWord := BitVec.ofNat 40 (w % 2 ^ nbits)

/-- The host's question: which instruction has these bits. -/
def decodeTableWord (nbits w : Nat) : Option Instr :=
  (decode (tableWord nbits w)).toOption

end Sys2Proof
end

