-- ==== Sys2Proof/Config.lean ====
section
/-! DEFINITION. Config.lean: the parameters of 00_scope.md R5 and R6 that are single values (the level tables, the
tags and the distance arithmetic stand with the operations that use them), and the one open parameter
`NIBBLE_OVERFLOW`. There is no free value: 93_implementation_defined.md leaves none that a command can reach. -/

namespace Sys2Proof

/-- `PAL_CAP`: the largest colour count of a palette and the size of the palette RAM (R5, R11). -/
@[simp] abbrev Config.palCap : Nat := 256

/-- `NIB_CAP`: the largest colour count allowed in 4-bit mode (R5). -/
@[simp] abbrev Config.nibCap : Nat := 16

/-- `TRANS_DEFAULT`: the default transparency index (R5). -/
@[simp] abbrev Config.transDefault : Byte := 0xE3#8

/-- `BEST_INIT` = 256^3: the initial best-distance bound of the search (R5). -/
@[simp] abbrev Config.bestInit : Int := 16777216

/-- `OPAQUE`: the only alpha value that is searched (R5). -/
@[simp] abbrev Config.opaqueAlpha : Byte := 255#8

/-- The three readings of `NIBBLE_OVERFLOW`, what the nibble packer does with an index above 15
(92_eei_decisions.md D18, 93_implementation_defined.md U4). -/
inductive NibbleOverflow where
  /-- raise `RangeError` -/
  | fault
  /-- use `idx[3:0]` in both positions -/
  | mask
  /-- keep `(idx << 4) & 0xFF` on even columns, OR all eight bits of the index in on odd columns -/
  | orUnmasked
  deriving DecidableEq, Repr

/-- The value the spec takes for `NIBBLE_OVERFLOW` (00_scope.md R6, D18): `fault`. Log entry 5. -/
@[simp] abbrev Config.nibbleOverflow : NibbleOverflow := .fault

end Sys2Proof
end

