-- ==== Sys2Proof/Machine/State.lean ====
section
/-! DEFINITION. Machine/State.lean: the seventeen registers S0 to S16 and the palette RAM M0 of 10_state.md R10, the
block's two streams (20_memory.md R43, R44), the reasons a step can stop, and the state after reset
(70_reset_and_hazards.md R191). Plain data throughout. -/

namespace Sys2Proof.Machine

/-- `PHASE` (10_state.md R15): which multi-command operation is open. The codes 0, 1, 2, 3, 7 are `Phase.code` of
Machine/Flags.lean; the values 4, 5 and 6, which never occur, are not representable (log entry 6). -/
inductive Phase where
  /-- 0 `IDLE`: nothing open -/
  | idle
  /-- 1 `NIPLOAD`: a NIP stream is being received -/
  | nipLoad
  /-- 2 `IMPORT`: a text-palette import is open -/
  | textImport
  /-- 3 `IMAGE`: an image is being coded -/
  | image
  /-- 7 `HALT`: a fault was taken -/
  | halt
  deriving DecidableEq, Repr

/-- The fault kinds of 60_exceptions.md R161, `ERR` codes 1 to 7; no fault (code 0) is `none` in `State.err`. -/
inductive ErrKind where
  /-- 1 -/
  | parameterError
  /-- 2, a host-side kind, never raised by the block -/
  | fileOpenError
  /-- 3 -/
  | paletteFormatError
  /-- 4, a host-side kind, never raised by the block -/
  | imageDecodeError
  /-- 5 -/
  | constraintError
  /-- 6 -/
  | sequenceError
  /-- 7 -/
  | rangeError
  deriving DecidableEq, Repr

/-- `LDS` (10_state.md R18): the NIP loader's position. The codes 0 to 8 are `LoadPos.code` of Machine/Flags.lean;
the values 9 to 15, which never occur, are not representable (log entry 6). -/
inductive LoadPos where
  /-- 0: awaiting tag byte 0 -/
  | tag0
  /-- 1: awaiting tag byte 1 -/
  | tag1
  /-- 2: awaiting tag byte 2 -/
  | tag2
  /-- 3: awaiting tag byte 3 -/
  | tag3
  /-- 4: awaiting the count byte -/
  | count
  /-- 5: awaiting the flags byte -/
  | flags
  /-- 6: awaiting the first (packed) byte of colour number `COUNT` -/
  | packed
  /-- 7: awaiting the extension byte of colour number `COUNT` -/
  | extension
  /-- 8: awaiting the trailing transparency byte -/
  | trailer
  deriving DecidableEq, Repr

/-- A colour: three 3-bit channel indices (10_state.md R11, 30_encoding.md R70). -/
structure Colour where
  r : BitVec 3
  g : BitVec 3
  b : BitVec 3
  deriving DecidableEq, Repr

/-- The palette RAM: the entries that hold a value, as (address, colour) pairs. An address that is not listed holds
no value (10_state.md R33, log entry 1). -/
abbrev PalRam := List (Nat × Colour)

/-- What the host does at the block's inputs (70_reset_and_hazards.md R197): present a command word, or assert the
reset input, which is not a command word (R190). -/
inductive HostEvent where
  | command (cw : CommandWord)
  | reset
  deriving DecidableEq, Repr

/-- The state of the block (10_state.md R10) and its two streams. -/
structure State where
  /-- S0 `PHASE` (R15) -/
  phase : Phase
  /-- S1 `ERR` (R16): `none` is the value 0 -/
  err : Option ErrKind
  /-- S2 `COUNT` (R12) -/
  count : BitVec 9
  /-- S3 `TRANS` (R13) -/
  trans : Byte
  /-- S4 `RES` (R14) -/
  res : BitVec 16
  /-- S5 `NIPFLAGS` (R22) -/
  nipFlags : Byte
  /-- S6 `DECL` (R17) -/
  decl : BitVec 9
  /-- S7 `LDS` (R18) -/
  lds : LoadPos
  /-- S8 `TAGOK` (R19) -/
  tagOk : Bool
  /-- S9 `LDEXT` (R20) -/
  ldExt : Bool
  /-- S10 `LDP` (R21) -/
  ldp : Byte
  /-- S11 `W` (R23) -/
  w : BitVec 16
  /-- S12 `H` (R23) -/
  h : BitVec 16
  /-- S13 `X` (R24) -/
  x : BitVec 16
  /-- S14 `Y` (R24) -/
  y : BitVec 16
  /-- S15 `MODE4` (R25) -/
  mode4 : Bool
  /-- S16 `NIB` (R26) -/
  nib : BitVec 4
  /-- M0 `PAL` (R11) -/
  pal : PalRam
  /-- The output byte stream, every byte emitted so far, oldest first (20_memory.md R43, log entry 3). -/
  out : List Byte
  /-- What the host will do next at the command port and the reset input, oldest first (20_memory.md R44,
  log entry 2). -/
  port : List HostEvent
  deriving DecidableEq, Repr

/-- Why a step stops. Neither can happen in a state that a run from reset reaches (10_state.md R30, R33); both stand
for an access to a palette entry that holds no value or does not exist. The block's own faults (60_exceptions.md) are
no such stop: they are next states. -/
inductive Fault where
  /-- Raised by `QNEAR`, `PSTNIP`, `PGET` and `IPIX` when they read a palette entry that no command has written
  (R33: "treat a read of one as a fault of the model"). Safe. -/
  | unwrittenEntry
  /-- Raised by `DIN` and `PADD` when `COUNT` names no entry, 256 or above (20_memory.md R40). Safe. -/
  | noSuchEntry
  deriving DecidableEq, Repr

/-- Why a step is refused. -/
inductive Refusal where
  /-- Raised by an arm of `exec` whose instruction has no meaning yet; there is none. Safe. -/
  | notModelled (mnemonic : String)
  deriving DecidableEq, Repr

/-- The three outcomes of a command. -/
abbrev Result := Host.Outcome State Fault Refusal

/-- The state after reset (70_reset_and_hazards.md R191, log entry 13): every register zero except `TRANS` = 0xE3, no palette
entry holding a value, the output stream empty, the host presenting nothing yet. -/
def State.reset : State where
  phase := .idle
  err := none
  count := 0
  trans := 0xE3
  res := 0
  nipFlags := 0
  decl := 0
  lds := .tag0
  tagOk := false
  ldExt := false
  ldp := 0
  w := 0
  h := 0
  x := 0
  y := 0
  mode4 := false
  nib := 0
  pal := []
  out := []
  port := []

end Sys2Proof.Machine
end

