-- ==== Sys2Proof/Machine/Flags.lean ====
section
/-! DEFINITION. Machine/Flags.lean: there are no condition codes and no command sets a flag as a side effect
(10_state.md R28), so no flag is computed anywhere. What the host can see of the state is here: the numeric values
of the enumerated registers and the status outputs (10_state.md R10, 70_reset_and_hazards.md R197). -/

namespace Sys2Proof.Machine

/-- The value of `PHASE` (10_state.md R15). -/
def Phase.code : Phase → BitVec 3
  | .idle => 0
  | .nipLoad => 1
  | .textImport => 2
  | .image => 3
  | .halt => 7

/-- The code of a fault kind (60_exceptions.md R161). -/
def ErrKind.code : ErrKind → BitVec 4
  | .parameterError => 1
  | .fileOpenError => 2
  | .paletteFormatError => 3
  | .imageDecodeError => 4
  | .constraintError => 5
  | .sequenceError => 6
  | .rangeError => 7

/-- The value of `ERR`: 0 while no fault has been taken (10_state.md R16). -/
def errCode : Option ErrKind → BitVec 4
  | none => 0
  | some k => k.code

/-- The value of `LDS` (10_state.md R18). -/
def LoadPos.code : LoadPos → BitVec 4
  | .tag0 => 0
  | .tag1 => 1
  | .tag2 => 2
  | .tag3 => 3
  | .count => 4
  | .flags => 5
  | .packed => 6
  | .extension => 7
  | .trailer => 8

/-- The status outputs, wires the host samples between two commands; the loader items, `NIB` and the RAM are not
among them (10_state.md R10, 92_eei_decisions.md D6). -/
structure Status where
  phase : BitVec 3
  err : BitVec 4
  count : BitVec 9
  trans : Byte
  res : BitVec 16
  nipFlags : Byte
  decl : BitVec 9
  w : BitVec 16
  h : BitVec 16
  x : BitVec 16
  y : BitVec 16
  mode4 : Bool
  deriving DecidableEq, Repr

/-- What the host sees of a state (70_reset_and_hazards.md R197). -/
def statusOf (s : State) : Status where
  phase := s.phase.code
  err := errCode s.err
  count := s.count
  trans := s.trans
  res := s.res
  nipFlags := s.nipFlags
  decl := s.decl
  w := s.w
  h := s.h
  x := s.x
  y := s.y
  mode4 := s.mode4

end Sys2Proof.Machine
end

