-- ==== Sys2Proof/Machine/Operands.lean ====
section
/-! DEFINITION. Machine/Operands.lean: the pure functions on operand values: the level tables and snapping
(40_quantizer.md), the fields of a sample, and the colour encodings (30_encoding.md Part B). -/

namespace Sys2Proof.Machine

/-! ## Levels (40_quantizer.md sections 1 and 2) -/

/-- `LUT3`, the eight 3-bit levels (R90). -/
def lut3 : List Nat := [0, 36, 73, 109, 146, 182, 219, 255]

/-- `LUT2`, the four 2-bit levels (R91). -/
def lut2 : List Nat := [0, 85, 170, 255]

/-- `|a - b|` of two unsigned numbers (00_scope.md R7). -/
def absDiff (a b : Nat) : Nat := (a - b) + (b - a)

/-- `d < best`, where no value yet is `+infinity` (R92). -/
def improves (d : Nat) : Option Nat → Bool
  | none => true
  | some best => decide (d < best)

/-- The scan of R92 from level number `i` on. -/
def reduceLoop (v : Nat) : List Nat → Nat → Option Nat → Nat → Nat
  | [], _, _, index => index
  | t :: ts, i, best, index =>
    if t = v then i
    else if improves (absDiff t v) best then reduceLoop v ts (i + 1) (some (absDiff t v)) i
    else reduceLoop v ts (i + 1) best index

/-- `reduce(T, v)`: the index of the level nearest to `v`, the lowest on a tie (R92). -/
def reduce (T : List Nat) (v : Nat) : Nat := reduceLoop v T 0 none 0

/-- `reduce3(v)`, 0 to 7 (R92). -/
def reduce3 (v : Byte) : BitVec 3 := BitVec.ofNat 3 (reduce lut3 v.toNat)

/-- `reduce2(v)`, 0 to 3 (R92). -/
def reduce2 (v : Byte) : BitVec 2 := BitVec.ofNat 2 (reduce lut2 v.toNat)

/-- `expand3(c) = LUT3[c]` (R95). -/
def expand3 (c : BitVec 3) : Nat := lut3.getD c.toNat 0

/-- `dist2` between a palette colour and a raw pixel: exact integer arithmetic, signed differences (R96, R103). -/
def dist2 (c : Colour) (r g b : Byte) : Int :=
  let dr : Int := (expand3 c.r : Int) - (r.toNat : Int)
  let dg : Int := (expand3 c.g : Int) - (g.toNat : Int)
  let db : Int := (expand3 c.b : Int) - (b.toNat : Int)
  dr * dr + dg * dg + db * db

/-- Each raw channel snapped with `reduce3`, blue too (41_palette.md R117, 90_conflicts.md C4). -/
def snapColour (r g b : Byte) : Colour := ⟨reduce3 r, reduce3 g, reduce3 b⟩

/-! ## The pixel sample (30_encoding.md R82, 20_memory.md R46) -/

/-- `r = sample[7:0]`. -/
def sampleR (s : Sample) : Byte := s.extractLsb' 0 8

/-- `g = sample[15:8]`. -/
def sampleG (s : Sample) : Byte := s.extractLsb' 8 8

/-- `b = sample[23:16]`. -/
def sampleB (s : Sample) : Byte := s.extractLsb' 16 8

/-- `a = sample[31:24]`. -/
def sampleA (s : Sample) : Byte := s.extractLsb' 24 8

/-! ## Colour encodings (30_encoding.md R70 to R74) -/

/-- `R:G:B`, nine bits, zero-extended: a colour as `RES` delivers it (R70). -/
def colourWord (c : Colour) : BitVec 16 := (c.r ++ c.g ++ c.b).setWidth 16

/-- `pack8(R, G, B) = (R << 5) | (G << 2) | (B >> 1)` (R71). -/
def pack8 (c : Colour) : Byte :=
  (c.r.setWidth 8 <<< 5) ||| (c.g.setWidth 8 <<< 2) ||| (c.b.setWidth 8 >>> 1)

/-- `ext(B) = B & 1` (R72). -/
def extByte (c : Colour) : Byte := c.b.setWidth 8 &&& 1#8

/-- `unpack8(p)`: a colour of a non-extended stream, its low blue bit the OR of the two stored ones (R73). -/
def unpack8 (p : Byte) : Colour where
  r := p.extractLsb' 5 3
  g := p.extractLsb' 2 3
  b := ((p.extractLsb' 0 2).setWidth 3 <<< 1) |||
    ((p.extractLsb' 1 1 ||| p.extractLsb' 0 1).setWidth 3)

/-- `unpack9(p, s)`: a colour of an extended stream, its low blue bit bit 0 of the second byte (R74). -/
def unpack9 (p s : Byte) : Colour where
  r := p.extractLsb' 5 3
  g := p.extractLsb' 2 3
  b := ((p.extractLsb' 0 2).setWidth 3 <<< 1) ||| ((s.extractLsb' 0 1).setWidth 3)

/-- `default_colour(i)` (41_palette.md R111). -/
def defaultColour (i : Byte) : Colour where
  r := ((i &&& 0xE0#8) >>> 5).setWidth 3
  g := ((i &&& 0x1C#8) >>> 2).setWidth 3
  b := (((i &&& 3#8) <<< 1) + (((i &&& 2#8) >>> 1) ||| (i &&& 1#8))).setWidth 3

/-! ## Index nibbles (30_encoding.md R81) -/

/-- `idx[3:0]`. -/
def lowNibble (idx : Byte) : BitVec 4 := idx.extractLsb' 0 4

/-- `(NIB << 4) | idx[3:0]`: high nibble the first pixel of a pair, low nibble the second. -/
def packNibbles (hi lo : BitVec 4) : Byte := (hi.setWidth 8 <<< 4) ||| lo.setWidth 8

/-! ## Byte order (20_memory.md R45) -/

/-- A 16-bit value as its two bytes, little-endian. -/
def le16 (v : BitVec 16) : List Byte := [v.extractLsb' 0 8, v.extractLsb' 8 8]

end Sys2Proof.Machine
end

