-- ==== Sys2Proof/Machine/Ops.lean ====
section
/-! DEFINITION. Machine/Ops.lean: the named operations over the palette RAM, the registers and the output stream
that the commands share: reading and writing an entry, taking a fault and the reset that is its only way out, the
phase check, the emptiness check, the search and the pixel mapping. -/

namespace Sys2Proof.Machine

/-! ## The palette RAM (20_memory.md R40, R41) -/

/-- `PAL[i]`: the whole entry, if one has been written (10_state.md R33). -/
def PalRam.read : PalRam → Nat → Option Colour
  | [], _ => none
  | (b, c) :: m, a => if b = a then some c else PalRam.read m a

/-- `PAL[a] <- c`: that entry only (20_memory.md R50), the list kept in rising order of address. -/
def PalRam.write : PalRam → Nat → Colour → PalRam
  | [], a, c => [(a, c)]
  | (b, d) :: m, a, c =>
    if a < b then (a, c) :: (b, d) :: m
    else if a = b then (a, c) :: m
    else (b, d) :: PalRam.write m a c

/-- All 256 entries written at once (41_palette.md R112). -/
def PalRam.fill (f : Byte → Colour) : PalRam :=
  (List.range Config.palCap).map fun i => (i, f (BitVec.ofNat 8 i))

/-- Every listed address is above `lo` and they rise. -/
def PalRam.risingFrom : PalRam → Nat → Bool
  | [], _ => true
  | (a, _) :: m, lo => decide (lo ≤ a) && PalRam.risingFrom m (a + 1)

/-- The canonical form: addresses strictly rising, all in 0 to 255. An unlisted address holds no value, so no entry
can equal what it reads as. -/
def PalRam.wf (m : PalRam) : Bool :=
  PalRam.risingFrom m 0 && m.all fun e => decide (e.1 < Config.palCap)

/-- Entries `i` to `i + n - 1` in order, if each has been written. -/
def PalRam.entriesFrom (m : PalRam) (i : Nat) : Nat → Option (List Colour)
  | 0 => some []
  | n + 1 =>
    match m.read i, PalRam.entriesFrom m (i + 1) n with
    | some c, some cs => some (c :: cs)
    | _, _ => none

/-- `PAL[0 .. COUNT-1]` (41_palette.md R110). -/
def paletteColours (s : State) : Option (List Colour) :=
  s.pal.entriesFrom 0 s.count.toNat

/-- Goes on with the value of an entry, or stops where there is none (log entry 1). -/
def reading {α : Type} (o : Option α) (k : α → Result) : Result :=
  match o with
  | some v => k v
  | none => .fault .unwrittenEntry

/-! ## Faults and reset (60_exceptions.md R164 to R166, 70_reset_and_hazards.md R190) -/

/-- `raise K`: `ERR <- code(K)`, `PHASE <- HALT`, and nothing else; it is applied to the state before the command, so
the command's own writes and emissions are discarded (60_exceptions.md R164). -/
def State.raise (k : ErrKind) (s : State) : State :=
  { s with err := some k, phase := .halt }

/-- The reset input: the state of R191, whatever the state before. It emits nothing and withdraws nothing (R190). It does
not write the RAM, whose contents are unspecified afterwards, so no entry holds a value that the model may read: "a
palette entry that no command has written since reset holds no value" (10_state.md R33, log entry 4). There is no other
return from a fault (60_exceptions.md R166). What the host does next is the host's. -/
def State.assertReset (s : State) : State :=
  { State.reset with out := s.out, port := s.port }

/-! ## Commands in phases (10_state.md R15) -/

/-- The phase that accepts a command (30_encoding.md R63, column "accepted in phase"). -/
def acceptedIn : Instr → Phase
  | .qred3 _ => .idle
  | .qred2 _ => .idle
  | .qnear _ _ _ => .idle
  | .pdef => .idle
  | .pldnip => .idle
  | .din _ => .nipLoad
  | .pbegin _ => .idle
  | .padd _ _ _ => .textImport
  | .pend => .textImport
  | .pstnip _ => .idle
  | .pget _ => .idle
  | .tset _ => .idle
  | .ibegin8 _ _ => .idle
  | .ibegin4 _ _ => .idle
  | .ipix _ => .image

/-- The tests before a command's own (60_exceptions.md R163): in `HALT` it is ignored (R165), in any other phase that
does not accept it `SequenceError` is raised (R162). -/
def inPhase (p : Phase) (s : State) (body : Result) : Result :=
  if s.phase = .halt then .next s
  else if s.phase = p then body
  else .next (s.raise .sequenceError)

/-- A word that is no command: `ParameterError`, but ignored in `HALT` (60_exceptions.md R163). -/
def illegalWord (s : State) : Result :=
  if s.phase = .halt then .next s else .next (s.raise .parameterError)

/-- `if COUNT = 0: raise PaletteFormatError` (60_exceptions.md R162). -/
def needPalette (s : State) (body : Result) : Result :=
  if s.count = 0#9 then .next (s.raise .paletteFormatError) else body

/-! ## Results and output -/

/-- `RES <- v`. -/
def State.setRes (v : BitVec 16) (s : State) : State := { s with res := v }

/-- `emit`: bytes appended to the output stream (00_scope.md R8, 20_memory.md R43). -/
def State.emit (bs : List Byte) (s : State) : State := { s with out := s.out ++ bs }

/-! ## Building a palette -/

/-- `PAL[COUNT] <- c`, `COUNT <- COUNT + 1`; an address past the RAM does not exist (20_memory.md R40). -/
def appendColour (c : Colour) (s : State) : Result :=
  if s.count.toNat < Config.palCap then
    .next { s with pal := s.pal.write s.count.toNat c, count := s.count + 1#9 }
  else .fault .noSuchEntry

/-! ## The search (40_quantizer.md R97) -/

/-- The loop of `nearest` over the indices still to be examined. -/
def searchLoop (pal : PalRam) (trans r g b : Byte) : List Nat → Int → Nat → Option Nat
  | [], _, x => some x
  | i :: is, best, x =>
    if i = trans.toNat then searchLoop pal trans r g b is best x
    else
      match pal.read i with
      | none => none
      | some c =>
        if dist2 c r g b < best then searchLoop pal trans r g b is (dist2 c r g b) i
        else searchLoop pal trans r g b is best x

/-- `nearest(r, g, b)`: ascending over `0 .. COUNT-1`, the entry at `TRANS` never a candidate, strict comparison, 0
when there is no candidate (R97, R98, log entry 7). -/
def nearest (s : State) (r g b : Byte) : Option Byte :=
  (searchLoop s.pal s.trans r g b (List.range s.count.toNat) Config.bestInit 0).map (BitVec.ofNat 8)

/-- `pixel_index(sample)`: `TRANS` unless alpha is 255, else the search (42_bitmap.md R140). -/
def pixelIndex (s : State) (sample : Sample) : Option Byte :=
  if sampleA sample ≠ Config.opaqueAlpha then some s.trans
  else nearest s (sampleR sample) (sampleG sample) (sampleB sample)

/-! ## Images (42_bitmap.md) -/

/-- The position after a pixel, the last act of every successful `IPIX` (R145). The comparisons are exact
(00_scope.md R7, log entry 8). -/
def State.advance (s : State) : State :=
  if s.x.toNat + 1 < s.w.toNat then { s with x := s.x + 1#16 }
  else
    { s with
      x := 0
      y := s.y + 1#16
      phase := if s.y.toNat + 1 = s.h.toNat then .idle else s.phase }

/-- The nibble packer of R144 under a reading of `NIBBLE_OVERFLOW` (92_eei_decisions.md D18): the new `NIB` and the
bytes emitted, or nothing where `RangeError` is raised. -/
def packIndex (reading : NibbleOverflow) (odd : Bool) (nib : BitVec 4) (idx : Byte) :
    Option (BitVec 4 × List Byte) :=
  match reading, odd with
  | .fault, false => if 15 < idx.toNat then none else some (lowNibble idx, [])
  | .fault, true => if 15 < idx.toNat then none else some (nib, [packNibbles nib (lowNibble idx)])
  | .mask, false => some (lowNibble idx, [])
  | .mask, true => some (nib, [packNibbles nib (lowNibble idx)])
  | .orUnmasked, false => some (lowNibble idx, [])
  | .orUnmasked, true => some (nib, [packNibbles nib 0#4 ||| idx])

end Sys2Proof.Machine
end

