-- ==== Sys2Proof/Machine/NimFormat.lean ====
section
/-! DEFINITION. Machine/NimFormat.lean: the NIM bitmap stream, byte-exact (30_encoding.md R79 to R81): the header that
`IBEGIN8` and `IBEGIN4` emit, and the whole image as one function (42_bitmap.md R147), against which the pixel by
pixel coding of `IPIX` is stated. -/

namespace Sys2Proof.Machine

/-- `NIM_TAG`, "NIM0" (00_scope.md R5; the byte 4D is from general knowledge, 93_implementation_defined.md G1, log
entry 9). -/
def nimTag : List Byte := [0x4E, 0x49, 0x4D, 0x30]

/-- The eight header bytes, the same in both modes (30_encoding.md R79). -/
def nimHeader (w h : BitVec 16) : List Byte := nimTag ++ le16 w ++ le16 h

/-- Two indices a byte, pairing 2j and 2j+1 over the whole list (42_bitmap.md R147). -/
def packPairs : List Byte → List Byte
  | hi :: lo :: rest => ((hi <<< 4) ||| lo) :: packPairs rest
  | _ => []

/-- The index of every pixel of a list, if every entry the searches read has been written. -/
def pixelIndices (s : State) : List Sample → Option (List Byte)
  | [] => some []
  | p :: ps =>
    match pixelIndex s p, pixelIndices s ps with
    | some i, some is => some (i :: is)
    | _, _ => none

/-- `nim_encode` (42_bitmap.md R147) against the palette of a state, from the list of pixel indices. -/
def nimEncode (mode4 : Bool) (w h : BitVec 16) (indices : List Byte) : List Byte :=
  nimHeader w h ++ if mode4 then packPairs indices else indices

end Sys2Proof.Machine
end

