-- ==== Sys2Proof/Machine/Bitmap.lean ====
section
/-! DEFINITION. Machine/Bitmap.lean: the commands `IBEGIN8`, `IBEGIN4`, `IPIX` (42_bitmap.md). -/

namespace Sys2Proof.Machine

/-- The geometry recorded, the header emitted; with a zero dimension there are no pixels and nothing is opened
(R141, R142, R148). -/
def openImage (mode4 : Bool) (w h : BitVec 16) (s : State) : State :=
  { s with
    w := w, h := h, x := 0, y := 0, mode4 := mode4
    phase := if w ≠ 0#16 ∧ h ≠ 0#16 then .image else .idle
    out := s.out ++ nimHeader w h }

/-- `IBEGIN8 w, h` (R141). -/
def execIbegin8 (w h : BitVec 16) (s : State) : Result :=
  inPhase .idle s <| needPalette s <| .next (openImage false w h s)

/-- `IBEGIN4 w, h`: at most 16 colours, even width (R142). -/
def execIbegin4 (w h : BitVec 16) (s : State) : Result :=
  inPhase .idle s <| needPalette s <|
    if Config.nibCap < s.count.toNat then .next (s.raise .constraintError)
    else if w.getLsbD 0 then .next (s.raise .constraintError)
    else .next (openImage true w h s)

/-- What an index does to the open image: one byte in 8-bit mode, the nibble packer in 4-bit mode, then the position
(R143 to R145). -/
def codeIndex (idx : Byte) (s : State) : State :=
  if s.mode4 then
    match packIndex Config.nibbleOverflow (s.x.getLsbD 0) s.nib idx with
    | none => s.raise .rangeError
    | some (nib, bytes) => (State.emit bytes { s with nib := nib }).advance
  else (s.emit [idx]).advance

/-- `IPIX sample`: code the next pixel of the open image (R143). -/
def execIpix (sample : Sample) (s : State) : Result :=
  inPhase .image s <| reading (pixelIndex s sample) fun idx => .next (codeIndex idx s)

end Sys2Proof.Machine
end

