-- ==== Sys2Proof/Machine/NipFormat.lean ====
section
/-! DEFINITION. Machine/NipFormat.lean: the NIP palette stream, byte-exact (30_encoding.md R75 to R78), as the two
functions of 41_palette.md R115 and R120. `nipEncode` is what `PSTNIP` emits; `nipDecode` is what a load amounts
to, against which the loader of `DIN` is stated. -/

namespace Sys2Proof.Machine

/-- `NIP_TAG`, "NIP0" (00_scope.md R5). -/
def nipTag : List Byte := [0x4E, 0x49, 0x50, 0x30]

/-- The count byte as read: 0 is 256 (30_encoding.md R76). -/
def countOfByte (b : Byte) : BitVec 9 := if b = 0#8 then 256#9 else b.setWidth 9

/-- The bytes of one colour: packed, and in extended mode the extension byte at once after it (R71, R72). -/
def colourBytes (x : Bool) (c : Colour) : List Byte :=
  if x then [pack8 c, extByte c] else [pack8 c]

/-- `nip_encode(x)` of a palette (41_palette.md R120). -/
def nipEncode (x : Bool) (count : BitVec 9) (colours : List Colour) (trans : Byte) : List Byte :=
  nipTag ++ [count.setWidth 8, (BitVec.ofBool x).setWidth 8] ++ colours.flatMap (colourBytes x) ++ [trans]

/-- A decoded NIP stream: the palette, as its colours in order and its transparency index. -/
structure NipPalette where
  colours : List Colour
  trans : Byte
  deriving DecidableEq, Repr

/-- The colours of the colour section, `n` of them, and the bytes after it. -/
def decodeColours (x : Bool) : Nat → List Byte → Option (List Colour × List Byte)
  | 0, bs => some ([], bs)
  | n + 1, bs =>
    match x, bs with
    | false, p :: rest =>
      match decodeColours x n rest with
      | some (cs, after) => some (unpack8 p :: cs, after)
      | none => none
    | true, p :: e :: rest =>
      match decodeColours x n rest with
      | some (cs, after) => some (unpack9 p e :: cs, after)
      | none => none
    | _, _ => none

/-- `nip_decode(bytes)` (41_palette.md R115): the empty palette when the tag is wrong; no answer for a stream that ends
before its last byte, which the source does not define (93_implementation_defined.md U5). Bytes after the trailing
byte are not part of the record. -/
def nipDecode (bytes : List Byte) : Option NipPalette :=
  if bytes.take 4 ≠ nipTag then some ⟨[], Config.transDefault⟩
  else
    match bytes.drop 4 with
    | c :: f :: rest =>
      match decodeColours (f.getLsbD 0) (countOfByte c).toNat rest with
      | some (colours, last :: _) => some ⟨colours, last⟩
      | _ => none
    | _ => none

end Sys2Proof.Machine
end

