-- ==== Sys2Proof/Machine/Palette.lean ====
section
/-! DEFINITION. Machine/Palette.lean: the commands `PDEF`, `PLDNIP`, `DIN`, `PBEGIN`, `PADD`, `PEND`, `PSTNIP`, `PGET`,
`TSET` (41_palette.md). -/

namespace Sys2Proof.Machine

/-- `PDEF`: all 256 entries from the formula (R112). -/
def execPdef (s : State) : Result :=
  inPhase .idle s <| .next
    { s with pal := PalRam.fill defaultColour, count := 256#9, trans := Config.transDefault }

/-- `PLDNIP`: start receiving a NIP stream; the old palette is discarded at once (R113). -/
def execPldnip (s : State) : Result :=
  inPhase .idle s <| .next
    { s with
      count := 0, trans := Config.transDefault, decl := 0, lds := .tag0, tagOk := false, ldExt := false
      ldp := 0, nipFlags := 0, phase := .nipLoad }

/-- `LDS <- (if COUNT + 1 = DECL then 8 else 6)`, with `COUNT` as before the command (R114). -/
def afterColour (s : State) : LoadPos :=
  if s.count.toNat + 1 = s.decl.toNat then .trailer else .packed

/-- `case LDS of` of R114. -/
def loadByte (b : Byte) (s : State) : Result :=
  match s.lds with
  | .tag0 => .next { s with tagOk := b == 0x4E#8, lds := .tag1 }
  | .tag1 => .next { s with tagOk := s.tagOk && b == 0x49#8, lds := .tag2 }
  | .tag2 => .next { s with tagOk := s.tagOk && b == 0x50#8, lds := .tag3 }
  | .tag3 =>
    if s.tagOk && b == 0x30#8 then .next { s with lds := .count }
    else .next { s with tagOk := false, lds := .tag0, phase := .idle }
  | .count => .next { s with decl := countOfByte b, lds := .flags }
  | .flags => .next { s with nipFlags := b, ldExt := b.getLsbD 0, lds := .packed }
  | .packed =>
    if s.ldExt then .next { s with ldp := b, lds := .extension }
    else appendColour (unpack8 b) { s with lds := afterColour s }
  | .extension => appendColour (unpack9 s.ldp b) { s with lds := afterColour s }
  | .trailer => .next { s with trans := b, lds := .tag0, phase := .idle }

/-- `DIN b`: the next byte of the NIP stream (R114). -/
def execDin (b : Byte) (s : State) : Result :=
  inPhase .nipLoad s (loadByte b s)

/-- `PBEGIN n`: open a text import of `n` declared colours (R116). -/
def execPbegin (n : BitVec 16) (s : State) : Result :=
  inPhase .idle s <|
    if Config.palCap < n.toNat then .next (s.raise .paletteFormatError)
    else
      .next { s with count := 0, trans := Config.transDefault, decl := n.setWidth 9, phase := .textImport }

/-- `PADD r, g, b`: snap one raw triple and append it (R117). -/
def execPadd (r g b : Byte) (s : State) : Result :=
  inPhase .textImport s <|
    if s.count = s.decl then .next (s.raise .sequenceError)
    else appendColour (snapColour r g b) s

/-- `PEND`: close the import; a count other than the declared one leaves the empty palette (R118). -/
def execPend (s : State) : Result :=
  inPhase .textImport s <| .next
    { s with count := if s.count = s.decl then s.count else 0#9, phase := .idle }

/-- `PSTNIP x`: write the palette as a NIP stream; the mode is the operand alone (R121). -/
def execPstnip (x : Bool) (s : State) : Result :=
  inPhase .idle s <| needPalette s <| reading (paletteColours s) fun colours =>
    .next (s.emit (nipEncode x s.count colours s.trans))

/-- `PGET i`: read one palette entry (R122). -/
def execPget (i : Byte) (s : State) : Result :=
  inPhase .idle s <|
    if s.count.toNat ≤ i.toNat then .next (s.raise .rangeError)
    else reading (s.pal.read i.toNat) fun c => .next (s.setRes (colourWord c))

/-- `TSET v`: override the transparency index (R123). -/
def execTset (v : Byte) (s : State) : Result :=
  inPhase .idle s (.next { s with trans := v })

end Sys2Proof.Machine
end

