-- ==== Sys2Proof/Machine/Quantizer.lean ====
section
/-! DEFINITION. Machine/Quantizer.lean: the commands `QRED3`, `QRED2`, `QNEAR` (40_quantizer.md). -/

namespace Sys2Proof.Machine

/-- `QRED3 b`: `RES <- zext_16(reduce3(b))` (R100). -/
def execQred3 (b : Byte) (s : State) : Result :=
  inPhase .idle s (.next (s.setRes ((reduce3 b).setWidth 16)))

/-- `QRED2 b`: `RES <- zext_16(reduce2(b))` (R101). -/
def execQred2 (b : Byte) (s : State) : Result :=
  inPhase .idle s (.next (s.setRes ((reduce2 b).setWidth 16)))

/-- `QNEAR r, g, b`: `RES <- zext_16(nearest(r, g, b))`, an empty palette faulting first (R102). -/
def execQnear (r g b : Byte) (s : State) : Result :=
  inPhase .idle s <| needPalette s <| reading (nearest s r g b) fun idx =>
    .next (s.setRes (idx.setWidth 16))

end Sys2Proof.Machine
end

