-- ==== Sys2Proof/Machine/Dispatch.lean ====
section
/-! DEFINITION. Machine/Dispatch.lean: one arm per command, each one call of its meaning. -/

namespace Sys2Proof.Machine

def exec (i : Instr) (s : State) : Host.Outcome State Fault Refusal :=
  match i with
  | .qred3 b => Sys2Proof.Machine.execQred3 b s
  | .qred2 b => Sys2Proof.Machine.execQred2 b s
  | .qnear r g b => Sys2Proof.Machine.execQnear r g b s
  | .pdef => Sys2Proof.Machine.execPdef s
  | .pldnip => Sys2Proof.Machine.execPldnip s
  | .din b => Sys2Proof.Machine.execDin b s
  | .pbegin n => Sys2Proof.Machine.execPbegin n s
  | .padd r g b => Sys2Proof.Machine.execPadd r g b s
  | .pend => Sys2Proof.Machine.execPend s
  | .pstnip x => Sys2Proof.Machine.execPstnip x s
  | .pget k => Sys2Proof.Machine.execPget k s
  | .tset v => Sys2Proof.Machine.execTset v s
  | .ibegin8 w h => Sys2Proof.Machine.execIbegin8 w h s
  | .ibegin4 w h => Sys2Proof.Machine.execIbegin4 w h s
  | .ipix sample => Sys2Proof.Machine.execIpix sample s

end Sys2Proof.Machine
end

