-- ==== Sys2Proof/Machine/Run.lean ====
section
/-! DEFINITION. Machine/Run.lean: what one action of the host does to the block (00_scope.md R9), and a run, a list of
them (70_reset_and_hazards.md R208). -/

namespace Sys2Proof.Machine

/-- A command word is consumed completely, with any fault it causes (20_memory.md R44): decoded, then executed, or
`ParameterError` (60_exceptions.md R163). -/
def runWord (cw : CommandWord) (s : State) : Result :=
  match decode cw with
  | .ok i => exec i s
  | .error _ => illegalWord s

/-- The host presents a command word, or asserts the reset input. -/
def runEvent (e : HostEvent) (s : State) : Result :=
  match e with
  | .command cw => runWord cw s
  | .reset => .next s.assertReset

/-- The host's actions one after another, program order (20_memory.md R52). -/
def runEvents : List HostEvent → State → Result
  | [], s => .next s
  | e :: es, s =>
    match runEvent e s with
    | .next t => runEvents es t
    | .fault f => .fault f
    | .refused r => .refused r

end Sys2Proof.Machine
end

