-- ==== Sys2Proof/Machine/Assembler.lean ====
section
/-! DEFINITION. Machine/Assembler.lean: the assembler syntax of 30_encoding.md R67 and the pseudo-commands of R68. The
block never sees either: they are how the host writes command words. -/

namespace Sys2Proof.Machine

/-! ## One command (R67) -/

/-- Operands laid side by side from bit `at` up, the first in the lowest bits, as every format of R61 has them. -/
def layOperands : List Nat → List Nat → Nat → Nat
  | w :: ws, v :: vs, pos => v * 2 ^ pos + layOperands ws vs (pos + w)
  | _, _, _ => 0

/-- The word of a mnemonic and its operands; an operand that does not fit its field is an error, not a truncation. -/
def assemble (mnemonic : String) (operands : List Nat) : Option CommandWord :=
  match opcodeRows.find? fun row => row.mnemonic == mnemonic with
  | none => none
  | some row =>
    if operandsFit row.format.widths operands then
      some (row.matchBits ||| BitVec.ofNat 40 (layOperands row.format.widths operands 0))
    else none

/-! ## One line of text (R67; what R67 leaves open is log entry 11) -/

/-- Blanks between the parts of a line. -/
def isBlank (c : Char) : Bool := c == ' ' || c == '\t'

/-- The text without blanks at its ends. -/
def trimBlanks (cs : List Char) : List Char :=
  ((cs.dropWhile isBlank).reverse.dropWhile isBlank).reverse

/-- The value of a digit in a base. -/
def digitValue (base : Nat) (c : Char) : Option Nat :=
  let v :=
    if '0' ≤ c ∧ c ≤ '9' then c.toNat - '0'.toNat
    else if 'A' ≤ c ∧ c ≤ 'F' then c.toNat - 'A'.toNat + 10
    else if 'a' ≤ c ∧ c ≤ 'f' then c.toNat - 'a'.toNat + 10
    else base
  if v < base then some v else none

/-- A string of digits in a base, after a value already read. -/
def readDigits (base : Nat) : List Char → Nat → Option Nat
  | [], v => some v
  | c :: cs, v =>
    match digitValue base c with
    | some d => readDigits base cs (v * base + d)
    | none => none

/-- A number: decimal, or hexadecimal after `0x` or `$`. -/
def readNumber : List Char → Option Nat
  | '$' :: c :: cs => readDigits 16 (c :: cs) 0
  | '0' :: 'x' :: c :: cs => readDigits 16 (c :: cs) 0
  | c :: cs => readDigits 10 (c :: cs) 0
  | [] => none

/-- Text cut at the commas. -/
def cutCommas : List Char → List Char → List (List Char)
  | [], part => [part.reverse]
  | c :: cs, part =>
    if c = ',' then part.reverse :: cutCommas cs [] else cutCommas cs (c :: part)

/-- Each of the texts as a number. -/
def readNumbers : List (List Char) → Option (List Nat)
  | [] => some []
  | t :: ts =>
    match readNumber (trimBlanks t), readNumbers ts with
    | some v, some vs => some (v :: vs)
    | _, _ => none

/-- The operands of a line, separated by commas; none when nothing stands after the mnemonic. -/
def readOperands (cs : List Char) : Option (List Nat) :=
  if trimBlanks cs = [] then some [] else readNumbers (cutCommas cs [])

/-- One line: a mnemonic and its operands, a `;` starting a comment. No word for a line with no command, and no answer
for one that is an error. -/
def assembleLine (line : String) : Option (List CommandWord) :=
  let text := trimBlanks (line.toList.takeWhile (· ≠ ';'))
  if text = [] then some []
  else
    match readOperands (text.dropWhile fun c => !isBlank c) with
    | none => none
    | some ops => (assemble (String.ofList (text.takeWhile fun c => !isBlank c)) ops).map fun w => [w]

/-! ## Pseudo-commands (R68) -/

/-- A command presented at the command port. -/
def command (i : Instr) : HostEvent := .command (encode i)

/-- `IPIXC r, g, b, a`: the sample `(a << 24) | (b << 16) | (g << 8) | r`. -/
def sampleOf (r g b a : Byte) : Sample := a ++ b ++ g ++ r

/-- The pseudo-commands of R68. -/
inductive Pseudo where
  | ipixc (r g b a : Byte)
  | nipin (bytes : List Byte)
  | ptext (n : BitVec 16) (triples : List (Byte × Byte × Byte))
  /-- not a command: the host asserts the reset input -/
  | reset
  deriving DecidableEq, Repr

/-- The expansion of a pseudo-command. -/
def expandPseudo : Pseudo → List HostEvent
  | .ipixc r g b a => [command (.ipix (sampleOf r g b a))]
  | .nipin bytes => command .pldnip :: bytes.map fun b => command (.din b)
  | .ptext n triples =>
    command (.pbegin n) :: (triples.map fun t => command (.padd t.1 t.2.1 t.2.2)) ++ [command .pend]
  | .reset => [.reset]

end Sys2Proof.Machine
end

