-- ==== Sys2Proof/Safety.lean ====
section
/-! DEFINITION. Safety.lean: the invariants of 10_state.md R30, the state a run may be in, and what counts as a complete
run (70_reset_and_hazards.md R208). -/

namespace Sys2Proof.Machine

/-- Every entry of the palette has been written: `PAL[i]` for `i < COUNT` (R30 (g)). -/
def State.PaletteWritten (s : State) : Prop :=
  ∀ i : Nat, i < s.count.toNat → ∃ c, s.pal.read i = some c

/-- The clauses of 10_state.md R30, for one state. -/
structure State.R30 (s : State) : Prop where
  /-- (a) -/
  count_le : s.count.toNat ≤ 256
  /-- (a) -/
  decl_le : s.decl.toNat ≤ 256
  /-- (b); that `PHASE` is one of 0, 1, 2, 3, 7 is the type's -/
  err_halt : s.err ≠ none ↔ s.phase = .halt
  /-- (c); that `LDS` is at most 8 is the type's -/
  lds_zero : s.phase = .idle ∨ s.phase = .textImport ∨ s.phase = .image → s.lds = .tag0
  /-- (d) -/
  load_open : s.phase = .nipLoad → s.lds = .packed ∨ s.lds = .extension →
    1 ≤ s.decl.toNat ∧ s.count.toNat < s.decl.toNat
  /-- (d), whatever the phase: a load halted there keeps it -/
  load_full : s.lds = .trailer → s.count = s.decl ∧ 1 ≤ s.decl.toNat
  /-- (e) -/
  import_le : s.phase = .textImport → s.count.toNat ≤ s.decl.toNat
  /-- (f) -/
  image_open : s.phase = .image →
    1 ≤ s.count.toNat ∧ 1 ≤ s.w.toNat ∧ 1 ≤ s.h.toNat ∧ s.x.toNat < s.w.toNat ∧ s.y.toNat < s.h.toNat
  /-- (f) -/
  image_nibbles : s.phase = .image → s.mode4 = true → s.count.toNat ≤ 16 ∧ s.w.getLsbD 0 = false
  /-- (g) -/
  written : s.PaletteWritten
  /-- (h) -/
  flags_ext : s.nipFlags.getLsbD 0 = s.ldExt

/-- The inductive invariant: R30, the loader's header positions (no colour has arrived, and the count byte has been read
at `LDS` = 5; the step that R30 (d) needs), and the canonical form of the palette RAM. -/
structure State.Inv (s : State) : Prop where
  r30 : s.R30
  load_header : s.phase = .nipLoad →
    s.lds = .tag0 ∨ s.lds = .tag1 ∨ s.lds = .tag2 ∨ s.lds = .tag3 ∨ s.lds = .count ∨ s.lds = .flags →
    s.count = 0#9
  load_counted : s.phase = .nipLoad → s.lds = .flags → 1 ≤ s.decl.toNat
  pal_wf : s.pal.wf = true

/-- How a run stands (70_reset_and_hazards.md R208). -/
inductive RunEnd where
  /-- `PHASE` = `IDLE` and `ERR` = 0 -/
  | complete
  /-- ended in `HALT` -/
  | failed
  /-- an operation is open: the palette or the output is partial -/
  | unfinished
  deriving DecidableEq, Repr

/-- The end of a run, from its final state (70_reset_and_hazards.md R208). -/
def runEnd (s : State) : RunEnd :=
  match s.phase with
  | .idle => if s.err = none then .complete else .failed
  | .halt => .failed
  | .nipLoad => .unfinished
  | .textImport => .unfinished
  | .image => .unfinished

/-- Two states that no command can tell apart: equal but for palette entries at or above `COUNT`, which no rule reads
(10_state.md R11, R33). -/
def SameBelowCount (s t : State) : Prop :=
  (∀ i : Nat, i < s.count.toNat → s.pal.read i = t.pal.read i) ∧ t = { s with pal := t.pal }

end Sys2Proof.Machine
end

