-- ==== Sys2Proof/Certificates/Slice0/Obligations.lean ====
section
/-! DEFINITION. Certificates/Slice0/Obligations.lean: the statements for the provers. Each docstring says which rule of
spec/ it formalises. The small predicates of the first section are parts of several statements. -/

namespace Sys2Proof.Claims

open Sys2Proof.Machine

/-- The state a fault leaves: `ERR` and `PHASE` written, everything else as before the command (60_exceptions.md R164). -/
def faulted (k : ErrKind) (s : State) : State := { s with err := some k, phase := .halt }

/-- In every phase but `p` and `HALT` the command raises `SequenceError` (60_exceptions.md R162). -/
def SequenceErrorOutside (p : Phase) (i : Instr) (s : State) : Prop :=
  s.phase ≠ .halt → s.phase ≠ p → exec i s = .next (faulted .sequenceError s)

/-- A word of this opcode with a bit of the reserved field `lo .. lo+n-1` set raises `ParameterError`
(30_encoding.md R65). -/
def ParameterErrorOnReserved (op : Byte) (lo n : Nat) (s : State) : Prop :=
  ∀ cw : CommandWord, cw.extractLsb' 32 8 = op → cw.extractLsb' lo n ≠ 0#n → s.phase ≠ .halt →
    runWord cw s = .next (faulted .parameterError s)

/-- The word of this opcode and this operand field is the command (30_encoding.md R60). -/
def Encodes (op : Byte) (arg : BitVec 32) (i : Instr) : Prop := decode (op ++ arg) = .ok i

/-- The word selects the row (30_encoding.md R63). -/
def Selects (cw : CommandWord) (row : OpcodeRow) : Prop := cw &&& row.mask = row.matchBits

/-- Some entry may be searched: `exists i < COUNT, i != TRANS` (93_implementation_defined.md U1). -/
def HasCandidate (s : State) : Prop := ∃ i : Nat, i < s.count.toNat ∧ i ≠ s.trans.toNat

/-- The state at the next pixel position (42_bitmap.md R145). -/
def atNextPixel (s : State) : State :=
  if s.x.toNat + 1 < s.w.toNat then { s with x := s.x + 1 }
  else if s.y.toNat + 1 = s.h.toNat then { s with x := 0, y := s.y + 1, phase := .idle }
  else { s with x := 0, y := s.y + 1 }

/-- How many bytes of a stream the loader takes: the whole record, or four when the tag is wrong
(41_palette.md R115). -/
def recordLength (bytes : List Byte) : Nat :=
  if bytes.take 4 = [0x4E#8, 0x49#8, 0x50#8, 0x30#8] then
    let c := (bytes.getD 4 0).toNat
    let n := if c = 0 then 256 else c
    7 + n * (if (bytes.getD 5 0).getLsbD 0 then 2 else 1)
  else 4

/-- The blue index a non-extended stream gives back: `(B[2:1] << 1) | (B[2] | B[1])` (41_palette.md R124). -/
def rebuiltBlue (b : BitVec 3) : BitVec 3 :=
  BitVec.ofBool (b.getLsbD 2) ++ BitVec.ofBool (b.getLsbD 1) ++ BitVec.ofBool (b.getLsbD 2 || b.getLsbD 1)

/-- The colour that comes back from a written stream, by mode (41_palette.md R124). -/
def reread (extended : Bool) (c : Colour) : Colour := if extended then c else { c with b := rebuiltBlue c.b }

/-- The events of an image: the opening command, then one `IPIX` a sample (42_bitmap.md R147). -/
def imageEvents (mode4 : Bool) (w h : BitVec 16) (px : List Sample) : List HostEvent :=
  command (if mode4 then .ibegin4 w h else .ibegin8 w h) :: px.map fun p => command (.ipix p)

end Sys2Proof.Claims

open Sys2Proof Sys2Proof.Machine Sys2Proof.Claims

/-! ## The command word (30_encoding.md) -/

/-- Every command, with every operand at every value its field admits, decodes from its own word. -/
def Obligations.DecodeInvertsEncode : Prop :=
  ∀ i : Instr, decode (encode i) = .ok i

/-- A word decodes to one command only, and every bit of it counts: the command's word is that word. -/
def Obligations.EncodeInvertsDecode : Prop :=
  ∀ (cw : CommandWord) (i : Instr), decode cw = .ok i → encode i = cw

/-- 30_encoding.md R63: the row with `(cw & mask) = match` is the command the decoder reads, and no two rows match the
same word. -/
def Obligations.DecodeSelectsOpcodeRow : Prop :=
  ∀ cw : CommandWord,
    (∀ row ∈ opcodeRows, (Selects cw row ↔
      ∃ i, decode cw = .ok i ∧ i.mnemonic = row.mnemonic ∧ i.format = row.format ∧ opcodeOf i = row.opcode)) ∧
    (∀ row ∈ opcodeRows, ∀ row' ∈ opcodeRows, Selects cw row → Selects cw row' → row = row')

/-- 30_encoding.md R64: a word that matches no row is illegal and raises `ParameterError`, whatever the phase is but
`HALT`; any other word is a command. -/
def Obligations.WordMatchingNoRowRaisesParameterError : Prop :=
  ∀ (cw : CommandWord) (rest : List HostEvent) (s : State), s.port = .command cw :: rest → s.phase ≠ .halt →
    ((∀ row ∈ opcodeRows, ¬ Selects cw row) →
      step s = .next (faulted .parameterError { s with port := rest })) ∧
    ((∃ row ∈ opcodeRows, Selects cw row) → ∃ i, decode cw = .ok i ∧ step s = exec i { s with port := rest })

/-- Words written out from 30_encoding.md R60 to R63 and the vectors V-E2 decode to what they stand for (a sanity
statement on fixed words). -/
def Obligations.SampleWordsDecode : Prop :=
  decode 0x01000000C8 = .ok (.qred3 200) ∧ decode 0x03003264C8 = .ok (.qnear 200 100 50) ∧
  decode 0x1000000000 = .ok .pdef ∧ decode 0x120000004E = .ok (.din 0x4E) ∧
  decode 0x1300000100 = .ok (.pbegin 256) ∧ decode 0x14003264C8 = .ok (.padd 200 100 50) ∧
  decode 0x1600000001 = .ok (.pstnip true) ∧ decode 0x200002012C = .ok (.ibegin8 300 2) ∧
  decode 0x220038220C = .ok (.ipix 0x0038220C) ∧ decode 0x1600000002 = .error .reservedBitSet ∧
  decode 0x1900000000 = .error .undefinedOpcode

/-- 30_encoding.md R67: the assembler gives a command's mnemonic and operands the command's word. -/
def Obligations.AssembledCommandIsItsWord : Prop :=
  ∀ i : Instr, assemble i.mnemonic i.operands = some (encode i)

/-! ## Steps and runs (00_scope.md R9) -/

/-- A step runs the decoded command, the word taken from the port. -/
def Obligations.StepRunsDecodedCommand : Prop :=
  ∀ (s : State) (cw : CommandWord) (rest : List HostEvent) (i : Instr),
    s.port = .command cw :: rest → decode cw = .ok i → step s = exec i { s with port := rest }

/-- While the host presents nothing the block waits. The model's choice: log entry 2. -/
def Obligations.EmptyPortWaits : Prop :=
  ∀ s : State, s.port = [] → step s = .next s

/-- Steps of the machine over a port are the run of the events on it, one after another. -/
def Obligations.StepsRunThePort : Prop :=
  ∀ (evs rest : List HostEvent) (s : State), s.port = evs ++ rest →
    Host.Core.run Sys2Proof.core evs.length s = runEvents evs { s with port := rest }

/-! ## Reset (70_reset_and_hazards.md R190, R191) -/

/-- The numbers of `PHASE` (10_state.md R15), of `ERR` (60_exceptions.md R161) and of `LDS` (10_state.md R18), and the
status outputs of every state (70_reset_and_hazards.md R197); in these numbers, the registers after reset and an empty
output stream (70_reset_and_hazards.md R191). -/
def Obligations.ResetRegisterValues : Prop :=
  (∀ p : Phase, p.code = match p with | .idle => 0 | .nipLoad => 1 | .textImport => 2 | .image => 3 | .halt => 7) ∧
  (∀ e : Option ErrKind, errCode e = match e with
    | none => 0 | some .parameterError => 1 | some .fileOpenError => 2 | some .paletteFormatError => 3
    | some .imageDecodeError => 4 | some .constraintError => 5 | some .sequenceError => 6 | some .rangeError => 7) ∧
  (∀ l : LoadPos, l.code = match l with
    | .tag0 => 0 | .tag1 => 1 | .tag2 => 2 | .tag3 => 3 | .count => 4 | .flags => 5 | .packed => 6 | .extension => 7
    | .trailer => 8) ∧
  (∀ s : State, statusOf s =
    { phase := s.phase.code, err := errCode s.err, count := s.count, trans := s.trans, res := s.res
      nipFlags := s.nipFlags, decl := s.decl, w := s.w, h := s.h, x := s.x, y := s.y, mode4 := s.mode4 }) ∧
  statusOf State.reset =
    { phase := 0, err := 0, count := 0, trans := 0xE3, res := 0, nipFlags := 0, decl := 0
      w := 0, h := 0, x := 0, y := 0, mode4 := false } ∧
  State.reset.lds.code = 0 ∧ State.reset.tagOk = false ∧ State.reset.ldExt = false ∧ State.reset.ldp = 0 ∧
  State.reset.nib = 0 ∧ State.reset.out = []

/-- 70_reset_and_hazards.md R190: the reset input in any phase gives every register its reset value, and neither emits nor
withdraws a byte. That no palette entry then holds a value is how the model has the unspecified contents of the RAM
(log entry 4). -/
def Obligations.ResetInputRestoresResetState : Prop :=
  ∀ (s : State) (rest : List HostEvent), s.port = .reset :: rest →
    step s = .next
      { phase := .idle, err := none, count := 0, trans := 0xE3, res := 0, nipFlags := 0, decl := 0, lds := .tag0
        tagOk := false, ldExt := false, ldp := 0, w := 0, h := 0, x := 0, y := 0, mode4 := false, nib := 0
        pal := [], out := s.out, port := rest }

/-! ## Faults and phases (60_exceptions.md, 10_state.md R15) -/

/-- Every command raises `SequenceError` in a phase that does not accept it. -/
def Obligations.CommandOutsideItsPhaseRaisesSequenceError : Prop :=
  ∀ (i : Instr) (s : State), SequenceErrorOutside (acceptedIn i) i s

/-- 60_exceptions.md R165: in `HALT` every word is ignored, and a run that ends there has failed. -/
def Obligations.HaltIgnoresEveryWord : Prop :=
  ∀ (s : State) (cw : CommandWord) (rest : List HostEvent), s.phase = .halt → s.port = .command cw :: rest →
    step s = .next { s with port := rest } ∧ runEnd s = .failed

/-- A command either completes, and leaves `ERR` and never `HALT`, or faults and changes nothing but `ERR` and
`PHASE`, with one of the five codes the block raises (60_exceptions.md R160, R161, R164). -/
def Obligations.WordsCompleteOrFaultPrecisely : Prop :=
  ∀ (cw : CommandWord) (s t : State), s.phase ≠ .halt → runWord cw s = .next t →
    (t.phase ≠ .halt ∧ t.err = s.err) ∨
    (t = faulted .parameterError s ∨ t = faulted .paletteFormatError s ∨ t = faulted .constraintError s ∨
      t = faulted .sequenceError s ∨ t = faulted .rangeError s)

/-- 60_exceptions.md R166: the only exit from `HALT` is reset, which discards the palette; no second fault occurs. -/
def Obligations.OnlyResetLeavesHalt : Prop :=
  ∀ s t : State, s.phase = .halt → step s = .next t →
    (t.phase = .halt ∧ t.err = s.err) ∨ (∃ rest, s.port = .reset :: rest ∧ t.count = 0 ∧ t.err = none)

/-- The transitions of `PHASE` (10_state.md R15), over all commands. -/
def Obligations.PhaseTransitions : Prop :=
  ∀ (i : Instr) (s t : State), exec i s = .next t → t.phase ≠ s.phase →
    (s.phase = .idle ∧ t.phase = .nipLoad ∧ i = .pldnip) ∨
    (s.phase = .nipLoad ∧ t.phase = .idle ∧ ∃ b, i = .din b ∧
      (s.lds = .trailer ∨ (s.lds = .tag3 ∧ ¬ (s.tagOk = true ∧ b = 0x30)))) ∨
    (s.phase = .idle ∧ t.phase = .textImport ∧ ∃ n, i = .pbegin n) ∨
    (s.phase = .textImport ∧ t.phase = .idle ∧ i = .pend) ∨
    (s.phase = .idle ∧ t.phase = .image ∧ ∃ w h, w ≠ 0#16 ∧ h ≠ 0#16 ∧ (i = .ibegin8 w h ∨ i = .ibegin4 w h)) ∨
    (s.phase = .image ∧ t.phase = .idle ∧ s.w.toNat ≤ s.x.toNat + 1 ∧ s.y.toNat + 1 = s.h.toNat ∧
      ∃ p, i = .ipix p) ∨
    (s.phase ≠ .halt ∧ t.phase = .halt ∧ t.err ≠ none)

/-! ## Frames over all commands (10_state.md R12 to R26) -/

/-- Each register has no other writers than 10_state.md names. -/
def Obligations.RegistersHaveOnlyTheirWriters : Prop :=
  ∀ (i : Instr) (s t : State), exec i s = .next t →
    (t.res ≠ s.res → (∃ b, i = .qred3 b) ∨ (∃ b, i = .qred2 b) ∨ (∃ r g b, i = .qnear r g b) ∨ ∃ k, i = .pget k) ∧
    (t.count ≠ s.count → i = .pdef ∨ i = .pldnip ∨ (∃ b, i = .din b) ∨ (∃ n, i = .pbegin n) ∨
      (∃ r g b, i = .padd r g b) ∨ i = .pend) ∧
    (t.trans ≠ s.trans → i = .pdef ∨ i = .pldnip ∨ (∃ n, i = .pbegin n) ∨ (∃ b, i = .din b ∧ s.lds = .trailer) ∨
      ∃ v, i = .tset v) ∧
    (t.decl ≠ s.decl → i = .pldnip ∨ (∃ b, i = .din b ∧ s.lds = .count) ∨ ∃ n, i = .pbegin n) ∧
    (t.lds ≠ s.lds ∨ t.tagOk ≠ s.tagOk ∨ t.ldExt ≠ s.ldExt ∨ t.ldp ≠ s.ldp ∨ t.nipFlags ≠ s.nipFlags →
      i = .pldnip ∨ ∃ b, i = .din b) ∧
    (t.w ≠ s.w ∨ t.h ≠ s.h ∨ t.mode4 ≠ s.mode4 → ∃ w h, i = .ibegin8 w h ∨ i = .ibegin4 w h) ∧
    (t.x ≠ s.x ∨ t.y ≠ s.y → (∃ w h, i = .ibegin8 w h ∨ i = .ibegin4 w h) ∨ ∃ p, i = .ipix p) ∧
    (t.nib ≠ s.nib → (∃ p, i = .ipix p) ∧ s.mode4 = true ∧ s.x.toNat % 2 = 0) ∧
    t.port = s.port

/-- Which entry of the palette RAM a command writes, every other entry reading as before (20_memory.md R42, R50): all
of them for `PDEF`; the one at `COUNT` for a colour-completing `DIN` and for `PADD`; none for any other command. -/
def Obligations.PaletteRamFrame : Prop :=
  ∀ (i : Instr) (s t : State) (a : Nat), exec i s = .next t → t.pal.read a ≠ s.pal.read a →
    i = .pdef ∨
    (a = s.count.toNat ∧ ∃ b, i = .din b ∧ (s.lds = .packed ∧ s.ldExt = false ∨ s.lds = .extension)) ∨
    (a = s.count.toNat ∧ ∃ r g b, i = .padd r g b)

/-- The output stream only grows, and only `PSTNIP`, `IBEGIN8`, `IBEGIN4` and `IPIX` emit (20_memory.md R43); reset
withdraws nothing (70_reset_and_hazards.md R190). -/
def Obligations.OutputOnlyGrows : Prop :=
  (∀ s t : State, step s = .next t → s.out <+: t.out) ∧
  (∀ (i : Instr) (s t : State), exec i s = .next t → t.out ≠ s.out →
    t.phase ≠ .halt ∧ ((∃ x, i = .pstnip x) ∨ (∃ w h, i = .ibegin8 w h ∨ i = .ibegin4 w h) ∨ ∃ p, i = .ipix p))

/-- No command changes the palette while an image is open (41_palette.md R110). -/
def Obligations.PaletteFixedWhileImageOpen : Prop :=
  ∀ (i : Instr) (s t : State), s.phase = .image → exec i s = .next t →
    t.pal = s.pal ∧ t.count = s.count ∧ t.trans = s.trans

/-! ## The quantizer (40_quantizer.md) -/

/-- 40_quantizer.md R92: over any level table, the index of the nearest level, the lowest on a tie; `reduce3` and
`reduce2` over their tables. -/
def Obligations.ReduceFindsLowestNearestLevel : Prop :=
  (∀ (T : List Nat) (v : Nat), T ≠ [] →
    ∃ level, T[reduce T v]? = some level ∧
      ∀ (j other : Nat), T[j]? = some other →
        absDiff level v ≤ absDiff other v ∧ (j < reduce T v → absDiff level v < absDiff other v)) ∧
  (∀ v : Byte, (reduce3 v).toNat = reduce [0, 36, 73, 109, 146, 182, 219, 255] v.toNat) ∧
  (∀ v : Byte, (reduce2 v).toNat = reduce [0, 85, 170, 255] v.toNat)

/-- 40_quantizer.md R93, R94 and R95: the closed forms of the two snapping functions; the level of every channel index, by
the table of R90 (90_conflicts.md C10); and `reduce3` of a level is its index. -/
def Obligations.ReduceClosedForms : Prop :=
  (∀ v : Byte, (reduce3 v).toNat =
    if v.toNat ≤ 18 then 0 else if v.toNat ≤ 54 then 1 else if v.toNat ≤ 91 then 2 else if v.toNat ≤ 127 then 3
    else if v.toNat ≤ 164 then 4 else if v.toNat ≤ 200 then 5 else if v.toNat ≤ 237 then 6 else 7) ∧
  (∀ v : Byte, (reduce2 v).toNat =
    if v.toNat ≤ 42 then 0 else if v.toNat ≤ 127 then 1 else if v.toNat ≤ 212 then 2 else 3) ∧
  (∀ c : BitVec 3, [0, 36, 73, 109, 146, 182, 219, 255][c.toNat]? = some (expand3 c) ∧
    reduce3 (BitVec.ofNat 8 (expand3 c)) = c)

/-- 40_quantizer.md R96: the squared distance over the expanded levels, exact, 0 to 195 075 and so below the initial
bound. -/
def Obligations.DistanceIsExactAndBounded : Prop :=
  ∀ (c : Colour) (r g b : Byte),
    dist2 c r g b = ((expand3 c.r : Int) - r.toNat) ^ 2 + ((expand3 c.g : Int) - g.toNat) ^ 2 +
      ((expand3 c.b : Int) - b.toNat) ^ 2 ∧
    0 ≤ dist2 c r g b ∧ dist2 c r g b ≤ 195075 ∧ dist2 c r g b < Config.bestInit

/-- 40_quantizer.md R97: the search finds, among the entries below `COUNT` other than `TRANS`, the lowest index of
minimal distance. -/
def Obligations.SearchFindsLowestNearestCandidate : Prop :=
  ∀ (s : State) (r g b : Byte), s.count.toNat ≤ 256 → s.PaletteWritten → HasCandidate s →
    ∃ (x : Byte) (c : Colour), nearest s r g b = some x ∧ x.toNat < s.count.toNat ∧ x ≠ s.trans ∧
      s.pal.read x.toNat = some c ∧
      ∀ (j : Nat) (d : Colour), j < s.count.toNat → j ≠ s.trans.toNat → s.pal.read j = some d →
        dist2 c r g b ≤ dist2 d r g b ∧ (j < x.toNat → dist2 c r g b < dist2 d r g b)

/-- 40_quantizer.md R98: with no candidate the search returns 0, and with `COUNT >= 1` that is the case in exactly one
configuration. -/
def Obligations.SearchWithoutCandidateReturnsZero : Prop :=
  ∀ (s : State) (r g b : Byte),
    (¬ HasCandidate s → nearest s r g b = some 0#8) ∧
    (1 ≤ s.count.toNat → (¬ HasCandidate s ↔ s.count = 1#9 ∧ s.trans = 0#8))

/-- 40_quantizer.md R99 (a) to (e). -/
def Obligations.SearchConsequences : Prop :=
  ∀ (s : State) (r g b x : Byte), s.count.toNat ≤ 256 → s.PaletteWritten → nearest s r g b = some x →
    (HasCandidate s → x ≠ s.trans) ∧
    (x.toNat < s.count.toNat ∨ x = 0#8) ∧
    (∀ (j : Nat) (c : Colour), j < s.count.toNat → j ≠ s.trans.toNat → s.pal.read j = some c →
      r.toNat = expand3 c.r → g.toNat = expand3 c.g → b.toNat = expand3 c.b →
      dist2 c r g b = 0 ∧ s.pal.read x.toNat = some c ∧ x ≠ s.trans ∧ x.toNat < s.count.toNat ∧
        ∀ k : Nat, k < x.toNat → k ≠ s.trans.toNat → s.pal.read k ≠ some c) ∧
    (∀ j k : Nat, j < k → k < s.count.toNat → s.pal.read j = s.pal.read k → x.toNat = k → j = s.trans.toNat) ∧
    (∀ t : State, t.count = s.count → t.trans = s.trans →
      (∀ i : Nat, i < s.count.toNat → t.pal.read i = s.pal.read i) → nearest t r g b = some x)

/-- 40_quantizer.md R100. -/
def Obligations.Qred3DeliversLevelIndex : Prop :=
  ∀ (b : Byte) (s : State),
    (s.phase = .idle → exec (.qred3 b) s = .next { s with res := (reduce3 b).setWidth 16 }) ∧
    Encodes 0x01 (0#24 ++ b) (.qred3 b) ∧ SequenceErrorOutside .idle (.qred3 b) s ∧ ParameterErrorOnReserved 0x01 8 24 s

/-- 40_quantizer.md R101. -/
def Obligations.Qred2DeliversLevelIndex : Prop :=
  ∀ (b : Byte) (s : State),
    (s.phase = .idle → exec (.qred2 b) s = .next { s with res := (reduce2 b).setWidth 16 }) ∧
    Encodes 0x02 (0#24 ++ b) (.qred2 b) ∧ SequenceErrorOutside .idle (.qred2 b) s ∧ ParameterErrorOnReserved 0x02 8 24 s

/-- 40_quantizer.md R102. -/
def Obligations.QnearDeliversNearestIndex : Prop :=
  ∀ (r g b : Byte) (s : State),
    (s.phase = .idle → s.count = 0 → exec (.qnear r g b) s = .next (faulted .paletteFormatError s)) ∧
    (s.phase = .idle → s.count ≠ 0 → s.PaletteWritten →
      ∃ x, nearest s r g b = some x ∧ exec (.qnear r g b) s = .next { s with res := x.setWidth 16 }) ∧
    Encodes 0x03 (0#8 ++ b ++ g ++ r) (.qnear r g b) ∧ SequenceErrorOutside .idle (.qnear r g b) s ∧ ParameterErrorOnReserved 0x03 24 8 s

/-! ## Colour encodings (30_encoding.md R71 to R74) -/

/-- 30_encoding.md R74 and R73: a colour's two bytes give it back; its one byte gives back red, green and the two high
blue bits, the low one their OR. -/
def Obligations.ColourBytesGiveColourBack : Prop :=
  ∀ c : Colour,
    unpack9 (pack8 c) (extByte c) = c ∧
    unpack8 (pack8 c) = { c with b := rebuiltBlue c.b } ∧
    (rebuiltBlue c.b = c.b ↔ c.b = 0 ∨ c.b = 3 ∨ c.b = 5 ∨ c.b = 7) ∧
    (pack8 c).toNat = c.r.toNat * 32 + c.g.toNat * 4 + c.b.toNat / 2 ∧ (extByte c).toNat = c.b.toNat % 2

/-- 41_palette.md R111: the default colours, field by field; they are what a non-extended stream of the bytes 0 to 255
decodes to, and all distinct. -/
def Obligations.DefaultColours : Prop :=
  (∀ i : Byte, (defaultColour i).r.toNat = i.toNat / 32 ∧ (defaultColour i).g.toNat = i.toNat / 4 % 8 ∧
    (defaultColour i).b.toNat = 2 * (i.toNat % 4) + (if i.toNat % 4 = 0 then 0 else 1) ∧
    defaultColour i = unpack8 i) ∧
  ∀ i j : Byte, defaultColour i = defaultColour j → i = j

/-! ## The palette commands (41_palette.md) -/

/-- 41_palette.md R112. -/
def Obligations.PdefBuildsDefaultPalette : Prop :=
  ∀ s : State,
    (s.phase = .idle → ∃ pal : PalRam,
      exec .pdef s = .next { s with pal := pal, count := 256, trans := 0xE3 } ∧
      ∀ i : Nat, i < 256 → pal.read i = some (defaultColour (BitVec.ofNat 8 i))) ∧
    Encodes 0x10 0#32 .pdef ∧ SequenceErrorOutside .idle .pdef s ∧ ParameterErrorOnReserved 0x10 0 32 s

/-- 41_palette.md R113. -/
def Obligations.PldnipOpensLoad : Prop :=
  ∀ s : State,
    (s.phase = .idle →
      exec .pldnip s = .next
        { s with
          count := 0, trans := 0xE3, decl := 0, lds := .tag0, tagOk := false, ldExt := false, ldp := 0
          nipFlags := 0, phase := .nipLoad }) ∧
    Encodes 0x11 0#32 .pldnip ∧ SequenceErrorOutside .idle .pldnip s ∧ ParameterErrorOnReserved 0x11 0 32 s

/-- 41_palette.md R114, the header positions and the trailing byte: `LDS` 0 to 5 and 8. -/
def Obligations.DinReadsHeaderAndTrailer : Prop :=
  ∀ (b : Byte) (s : State),
    (s.phase = .nipLoad →
      (s.lds = .tag0 → exec (.din b) s = .next { s with tagOk := decide (b = 0x4E), lds := .tag1 }) ∧
      (s.lds = .tag1 →
        exec (.din b) s = .next { s with tagOk := s.tagOk && decide (b = 0x49), lds := .tag2 }) ∧
      (s.lds = .tag2 →
        exec (.din b) s = .next { s with tagOk := s.tagOk && decide (b = 0x50), lds := .tag3 }) ∧
      (s.lds = .tag3 → s.tagOk = true → b = 0x30 → exec (.din b) s = .next { s with lds := .count }) ∧
      (s.lds = .tag3 → ¬ (s.tagOk = true ∧ b = 0x30) →
        exec (.din b) s = .next { s with tagOk := false, lds := .tag0, phase := .idle }) ∧
      (s.lds = .count →
        exec (.din b) s =
          .next { s with decl := BitVec.ofNat 9 (if b.toNat = 0 then 256 else b.toNat), lds := .flags }) ∧
      (s.lds = .flags →
        exec (.din b) s = .next { s with nipFlags := b, ldExt := b.getLsbD 0, lds := .packed }) ∧
      (s.lds = .trailer → exec (.din b) s = .next { s with trans := b, lds := .tag0, phase := .idle })) ∧
    Encodes 0x12 (0#24 ++ b) (.din b) ∧ SequenceErrorOutside .nipLoad (.din b) s ∧ ParameterErrorOnReserved 0x12 8 24 s

/-- 41_palette.md R114, the colour positions: `LDS` 6 and 7. The colour goes to the entry at `COUNT`, which exists while
`COUNT` is below 256 (as in every state the invariant allows there). -/
def Obligations.DinReadsColours : Prop :=
  ∀ (b : Byte) (s : State), s.phase = .nipLoad →
    (s.lds = .packed → s.ldExt = true → exec (.din b) s = .next { s with ldp := b, lds := .extension }) ∧
    (s.lds = .packed → s.ldExt = false → s.count.toNat < 256 → ∃ pal : PalRam,
      pal.read s.count.toNat = some (unpack8 b) ∧
      (∀ a : Nat, a ≠ s.count.toNat → pal.read a = s.pal.read a) ∧
      exec (.din b) s = .next
        { s with
          pal := pal, count := s.count + 1
          lds := if s.count.toNat + 1 = s.decl.toNat then .trailer else .packed }) ∧
    (s.lds = .extension → s.count.toNat < 256 → ∃ pal : PalRam,
      pal.read s.count.toNat = some (unpack9 s.ldp b) ∧
      (∀ a : Nat, a ≠ s.count.toNat → pal.read a = s.pal.read a) ∧
      exec (.din b) s = .next
        { s with
          pal := pal, count := s.count + 1
          lds := if s.count.toNat + 1 = s.decl.toNat then .trailer else .packed })

/-- 41_palette.md R115: `PLDNIP` and one `DIN` a byte leave the palette that `nip_decode` gives, for every stream it
gives one for. -/
def Obligations.LoaderRefinesNipDecode : Prop :=
  ∀ (bytes : List Byte) (p : NipPalette) (s : State), s.phase = .idle → nipDecode bytes = some p →
    ∃ t, runEvents (expandPseudo (.nipin (bytes.take (recordLength bytes)))) s = .next t ∧
      t.count.toNat = p.colours.length ∧ t.trans = p.trans ∧
      (∀ i : Nat, i < p.colours.length → t.pal.read i = p.colours[i]?) ∧
      t.err = s.err ∧ t.out = s.out ∧ (4 ≤ bytes.length → t.phase = .idle)

/-- 41_palette.md R116. -/
def Obligations.PbeginOpensImport : Prop :=
  ∀ (n : BitVec 16) (s : State),
    (s.phase = .idle → 256 < n.toNat → exec (.pbegin n) s = .next (faulted .paletteFormatError s)) ∧
    (s.phase = .idle → n.toNat ≤ 256 →
      exec (.pbegin n) s = .next
        { s with count := 0, trans := 0xE3, decl := BitVec.ofNat 9 n.toNat, phase := .textImport }) ∧
    Encodes 0x13 (0#16 ++ n) (.pbegin n) ∧ SequenceErrorOutside .idle (.pbegin n) s ∧ ParameterErrorOnReserved 0x13 16 16 s

/-- 41_palette.md R117. The entry at `COUNT` exists while `COUNT` is below 256 (as in every state the invariant allows
there when `COUNT` is not `DECL`). -/
def Obligations.PaddAppendsSnappedColour : Prop :=
  ∀ (r g b : Byte) (s : State),
    (s.phase = .textImport → s.count = s.decl → exec (.padd r g b) s = .next (faulted .sequenceError s)) ∧
    (s.phase = .textImport → s.count ≠ s.decl → s.count.toNat < 256 → ∃ pal : PalRam,
      pal.read s.count.toNat = some ⟨reduce3 r, reduce3 g, reduce3 b⟩ ∧
      (∀ a : Nat, a ≠ s.count.toNat → pal.read a = s.pal.read a) ∧
      exec (.padd r g b) s = .next { s with pal := pal, count := s.count + 1 }) ∧
    Encodes 0x14 (0#8 ++ b ++ g ++ r) (.padd r g b) ∧ SequenceErrorOutside .textImport (.padd r g b) s ∧ ParameterErrorOnReserved 0x14 24 8 s

/-- 41_palette.md R118. -/
def Obligations.PendChecksDeclaredCount : Prop :=
  ∀ s : State,
    (s.phase = .textImport → s.count = s.decl → exec .pend s = .next { s with phase := .idle }) ∧
    (s.phase = .textImport → s.count ≠ s.decl → exec .pend s = .next { s with count := 0, phase := .idle }) ∧
    Encodes 0x15 0#32 .pend ∧ SequenceErrorOutside .textImport .pend s ∧ ParameterErrorOnReserved 0x15 0 32 s

/-- A whole text import (41_palette.md R116 to R118): with exactly the declared triples, their snapped colours; with
fewer, the empty palette and no fault; with more, `SequenceError`. -/
def Obligations.TextImportBuildsSnappedPalette : Prop :=
  ∀ (n : BitVec 16) (triples : List (Byte × Byte × Byte)) (s : State), s.phase = .idle → n.toNat ≤ 256 →
    ∃ t, runEvents (expandPseudo (.ptext n triples)) s = .next t ∧ t.out = s.out ∧
      (triples.length = n.toNat →
        t.phase = .idle ∧ t.err = s.err ∧ t.count.toNat = n.toNat ∧ t.trans = 0xE3 ∧
        ∀ (i : Nat) (r g b : Byte), triples[i]? = some (r, g, b) →
          t.pal.read i = some ⟨reduce3 r, reduce3 g, reduce3 b⟩) ∧
      (triples.length < n.toNat → t.phase = .idle ∧ t.err = s.err ∧ t.count = 0 ∧ t.trans = 0xE3) ∧
      (n.toNat < triples.length → t.phase = .halt ∧ t.err = some .sequenceError)

/-- 41_palette.md R120: the byte list of a palette, and its length. -/
def Obligations.NipEncodingBytes : Prop :=
  ∀ (x : Bool) (count : BitVec 9) (colours : List Colour) (last : Byte),
    nipEncode x count colours last =
      [0x4E#8, 0x49#8, 0x50#8, 0x30#8, BitVec.ofNat 8 count.toNat, if x then 1#8 else 0#8] ++
        (colours.map fun c => if x then [pack8 c, extByte c] else [pack8 c]).flatten ++ [last] ∧
    (nipEncode x count colours last).length = if x then 7 + 2 * colours.length else 7 + colours.length

/-- 41_palette.md R121. -/
def Obligations.PstnipEmitsNipStream : Prop :=
  ∀ (x : Bool) (s : State),
    (s.phase = .idle → s.count = 0 → exec (.pstnip x) s = .next (faulted .paletteFormatError s)) ∧
    (s.phase = .idle → s.count ≠ 0 → s.PaletteWritten → ∃ colours : List Colour,
      colours.length = s.count.toNat ∧ (∀ i : Nat, i < s.count.toNat → s.pal.read i = colours[i]?) ∧
      exec (.pstnip x) s = .next { s with out := s.out ++ nipEncode x s.count colours s.trans }) ∧
    Encodes 0x16 (0#31 ++ BitVec.ofBool x) (.pstnip x) ∧ SequenceErrorOutside .idle (.pstnip x) s ∧ ParameterErrorOnReserved 0x16 1 31 s

/-- 41_palette.md R122. -/
def Obligations.PgetReadsEntryInRange : Prop :=
  ∀ (k : Byte) (s : State),
    (s.phase = .idle → s.count.toNat ≤ k.toNat → exec (.pget k) s = .next (faulted .rangeError s)) ∧
    (∀ c : Colour, s.phase = .idle → k.toNat < s.count.toNat → s.pal.read k.toNat = some c →
      exec (.pget k) s = .next
        { s with res := BitVec.ofNat 16 (64 * c.r.toNat + 8 * c.g.toNat + c.b.toNat) }) ∧
    Encodes 0x17 (0#24 ++ k) (.pget k) ∧ SequenceErrorOutside .idle (.pget k) s ∧ ParameterErrorOnReserved 0x17 8 24 s

/-- 41_palette.md R123. -/
def Obligations.TsetOverridesTransparency : Prop :=
  ∀ (v : Byte) (s : State),
    (s.phase = .idle → exec (.tset v) s = .next { s with trans := v }) ∧
    Encodes 0x18 (0#24 ++ v) (.tset v) ∧ SequenceErrorOutside .idle (.tset v) s ∧ ParameterErrorOnReserved 0x18 8 24 s

/-- 41_palette.md R124: `PSTNIP`, then the emitted bytes sent back through `PLDNIP` and `DIN`. Extended: the palette
exactly. Not extended: `COUNT`, `TRANS`, red and green exactly, each blue as `(B[2:1] << 1) | (B[2] | B[1])`. -/
def Obligations.WrittenPaletteLoadsBack : Prop :=
  ∀ (x : Bool) (s : State), s.phase = .idle → 1 ≤ s.count.toNat → s.count.toNat ≤ 256 → s.PaletteWritten →
    ∃ (bytes : List Byte) (t u : State),
      exec (.pstnip x) s = .next t ∧ t.out = s.out ++ bytes ∧
      runEvents (expandPseudo (.nipin bytes)) t = .next u ∧
      u.phase = .idle ∧ u.err = s.err ∧ u.out = t.out ∧ u.count = s.count ∧ u.trans = s.trans ∧
      ∀ (i : Nat) (c : Colour), i < s.count.toNat → s.pal.read i = some c →
        u.pal.read i = some (reread x c)

/-- 41_palette.md R125: a loaded stream written back in its own mode is the stream, but for bits 7 to 1 of the flags byte
and of each extension byte (in an extended record the bytes at the odd positions from 7 on), which come back as zero. -/
def Obligations.LoadedStreamWritesBack : Prop :=
  ∀ (bytes : List Byte) (p : NipPalette) (x : Bool),
    bytes.take 4 = [0x4E#8, 0x49#8, 0x50#8, 0x30#8] → nipDecode bytes = some p →
    x = (bytes.getD 5 0).getLsbD 0 →
    (nipEncode x (BitVec.ofNat 9 p.colours.length) p.colours p.trans).length = recordLength bytes ∧
    ∀ i : Nat, i < recordLength bytes →
      (nipEncode x (BitVec.ofNat 9 p.colours.length) p.colours p.trans)[i]? =
        some (if i = 5 ∨ (x = true ∧ 7 ≤ i ∧ i % 2 = 1) then bytes.getD i 0 &&& 1 else bytes.getD i 0)

/-! ## The bitmap coder (42_bitmap.md) -/

/-- 42_bitmap.md R140. -/
def Obligations.PixelIndexRule : Prop :=
  ∀ (s : State) (r g b a : Byte),
    (a ≠ 255 → pixelIndex s (a ++ b ++ g ++ r) = some s.trans) ∧
    (a = 255 → pixelIndex s (a ++ b ++ g ++ r) = nearest s r g b)

/-- 42_bitmap.md R141. -/
def Obligations.Ibegin8OpensImage : Prop :=
  ∀ (w h : BitVec 16) (s : State),
    (s.phase = .idle → s.count = 0 → exec (.ibegin8 w h) s = .next (faulted .paletteFormatError s)) ∧
    (s.phase = .idle → s.count ≠ 0 →
      exec (.ibegin8 w h) s = .next
        { s with
          w := w, h := h, x := 0, y := 0, mode4 := false
          phase := if w ≠ 0 ∧ h ≠ 0 then .image else .idle
          out := s.out ++ [0x4E, 0x49, 0x4D, 0x30, BitVec.ofNat 8 w.toNat, BitVec.ofNat 8 (w.toNat / 256),
            BitVec.ofNat 8 h.toNat, BitVec.ofNat 8 (h.toNat / 256)] }) ∧
    Encodes 0x20 (h ++ w) (.ibegin8 w h) ∧ SequenceErrorOutside .idle (.ibegin8 w h) s

/-- 42_bitmap.md R142. -/
def Obligations.Ibegin4ChecksAndOpensImage : Prop :=
  ∀ (w h : BitVec 16) (s : State),
    (s.phase = .idle → s.count = 0 → exec (.ibegin4 w h) s = .next (faulted .paletteFormatError s)) ∧
    (s.phase = .idle → s.count ≠ 0 → 16 < s.count.toNat ∨ w.toNat % 2 = 1 →
      exec (.ibegin4 w h) s = .next (faulted .constraintError s)) ∧
    (s.phase = .idle → s.count ≠ 0 → s.count.toNat ≤ 16 → w.toNat % 2 = 0 →
      exec (.ibegin4 w h) s = .next
        { s with
          w := w, h := h, x := 0, y := 0, mode4 := true
          phase := if w ≠ 0 ∧ h ≠ 0 then .image else .idle
          out := s.out ++ [0x4E, 0x49, 0x4D, 0x30, BitVec.ofNat 8 w.toNat, BitVec.ofNat 8 (w.toNat / 256),
            BitVec.ofNat 8 h.toNat, BitVec.ofNat 8 (h.toNat / 256)] }) ∧
    Encodes 0x21 (h ++ w) (.ibegin4 w h) ∧ SequenceErrorOutside .idle (.ibegin4 w h) s

/-- 42_bitmap.md R143 and R145 in 8-bit mode: the index is emitted and the position advances. A pixel that is not opaque
needs no palette entry. -/
def Obligations.IpixEmitsIndexByte : Prop :=
  ∀ (sample : Sample) (s : State),
    (s.phase = .image → s.mode4 = false → s.PaletteWritten ∨ sample.extractLsb' 24 8 ≠ 255#8 →
      ∃ idx, pixelIndex s sample = some idx ∧
        exec (.ipix sample) s = .next (atNextPixel { s with out := s.out ++ [idx] })) ∧
    Encodes 0x22 sample (.ipix sample) ∧ SequenceErrorOutside .image (.ipix sample) s

/-- 42_bitmap.md R144 with R143 and R145, in 4-bit mode: an index above 15 raises `RangeError`; on an even column the
index is stashed and nothing is emitted; on an odd column the pair is emitted, the stashed index in the high nibble. -/
def Obligations.IpixPacksIndexNibbles : Prop :=
  ∀ (sample : Sample) (s : State), s.phase = .image → s.mode4 = true →
    s.PaletteWritten ∨ sample.extractLsb' 24 8 ≠ 255#8 →
    ∃ idx, pixelIndex s sample = some idx ∧
      (15 < idx.toNat → exec (.ipix sample) s = .next (faulted .rangeError s)) ∧
      (idx.toNat ≤ 15 → s.x.toNat % 2 = 0 →
        exec (.ipix sample) s = .next (atNextPixel { s with nib := BitVec.ofNat 4 idx.toNat })) ∧
      (idx.toNat ≤ 15 → s.x.toNat % 2 = 1 →
        exec (.ipix sample) s = .next
          (atNextPixel { s with out := s.out ++ [BitVec.ofNat 8 (16 * s.nib.toNat + idx.toNat)] }))

/-- 42_bitmap.md R147 with R146: the opening command and one `IPIX` a pixel emit exactly `nim_encode`, of the stated
length, against one palette, and the image closes by itself. In 4-bit mode the transparency index must fit a nibble if
a pixel is not opaque (70_reset_and_hazards.md R201). -/
def Obligations.ImageRunEmitsNimEncoding : Prop :=
  ∀ (s : State) (mode4 : Bool) (w h : BitVec 16) (px : List Sample),
    s.phase = .idle → 1 ≤ s.count.toNat → s.count.toNat ≤ 256 → s.PaletteWritten → w ≠ 0 → h ≠ 0 →
    px.length = w.toNat * h.toNat →
    (mode4 = true → s.count.toNat ≤ 16 ∧ w.toNat % 2 = 0 ∧
      ∀ p ∈ px, p.extractLsb' 24 8 ≠ 255#8 → s.trans.toNat ≤ 15) →
    ∃ (indices : List Byte) (t : State), pixelIndices s px = some indices ∧
      runEvents (imageEvents mode4 w h px) s = .next t ∧
      t.out = s.out ++ nimEncode mode4 w h indices ∧
      (nimEncode mode4 w h indices).length =
        8 + (if mode4 then w.toNat / 2 * h.toNat else w.toNat * h.toNat) ∧
      t.phase = .idle ∧ t.err = s.err ∧ t.pal = s.pal ∧ t.count = s.count ∧ t.trans = s.trans ∧
      t.x = 0 ∧ t.y = h

/-- 42_bitmap.md R148: an image with a zero dimension is its header, in either mode, the checks of the opening command made
first; the block stays in `IDLE` and a pixel that follows raises `SequenceError`. -/
def Obligations.ZeroDimensionImageIsItsHeader : Prop :=
  ∀ (s : State) (mode4 : Bool) (w h : BitVec 16) (p : Sample), s.phase = .idle → s.count ≠ 0 → w = 0 ∨ h = 0 →
    (mode4 = true → s.count.toNat ≤ 16 ∧ w.toNat % 2 = 0) →
    ∃ t, exec (if mode4 then .ibegin4 w h else .ibegin8 w h) s = .next t ∧ t.phase = .idle ∧
      t.out = s.out ++ [0x4E, 0x49, 0x4D, 0x30, BitVec.ofNat 8 w.toNat, BitVec.ofNat 8 (w.toNat / 256),
        BitVec.ofNat 8 h.toNat, BitVec.ofNat 8 (h.toNat / 256)] ∧
      t.w = w ∧ t.h = h ∧ t.x = 0 ∧ t.y = 0 ∧ t.mode4 = mode4 ∧
      exec (.ipix p) t = .next (faulted .sequenceError t)

/-! ## Invariants (10_state.md R30, R33) -/

/-- The invariant holds at reset. -/
def Obligations.ResetSatisfiesInvariant : Prop := State.reset.Inv

/-- Every step keeps the invariant, from every state that has it. -/
def Obligations.StepKeepsInvariant : Prop :=
  ∀ s t : State, s.Inv → step s = .next t → t.Inv

/-- 10_state.md R30: in every state reachable from reset by any command sequence. -/
def Obligations.ReachableStatesSatisfyR30 : Prop :=
  ∀ (evs : List HostEvent) (s : State), runEvents evs State.reset = .next s → s.R30

/-- From a state with the invariant no step stops: no command meets a palette entry that holds no value
(10_state.md R33). -/
def Obligations.InvariantStatesNeverStop : Prop :=
  ∀ s : State, s.Inv → ∃ t, step s = .next t

/-- Where a command does stop, in states outside the invariant: at a palette entry that no command has written, or at
`COUNT` where it names no entry (log entry 1). No command is refused. -/
def Obligations.MissingEntriesStopCommands : Prop :=
  (∀ (s : State) (k : Byte), s.phase = .idle → k.toNat < s.count.toNat → s.pal.read k.toNat = none →
    exec (.pget k) s = .fault .unwrittenEntry) ∧
  (∀ (s : State) (x : Bool) (i : Nat), s.phase = .idle → i < s.count.toNat → s.pal.read i = none →
    exec (.pstnip x) s = .fault .unwrittenEntry) ∧
  (∀ (s : State) (r g b : Byte) (i : Nat), s.phase = .idle → i < s.count.toNat → i ≠ s.trans.toNat →
    s.pal.read i = none → exec (.qnear r g b) s = .fault .unwrittenEntry) ∧
  (∀ (s : State) (p : Sample) (i : Nat), s.phase = .image → p.extractLsb' 24 8 = 255#8 → i < s.count.toNat →
    i ≠ s.trans.toNat → s.pal.read i = none → exec (.ipix p) s = .fault .unwrittenEntry) ∧
  (∀ (s : State) (r g b : Byte), s.phase = .textImport → s.count ≠ s.decl → 256 ≤ s.count.toNat →
    exec (.padd r g b) s = .fault .noSuchEntry) ∧
  (∀ (s : State) (b : Byte), s.phase = .nipLoad → 256 ≤ s.count.toNat →
    s.lds = .packed ∧ s.ldExt = false ∨ s.lds = .extension → exec (.din b) s = .fault .noSuchEntry) ∧
  (∀ (s : State) (r : Refusal), step s ≠ .refused r)

/-! ## What is never read (10_state.md R11, R14, R22, R33) -/

/-- No step reads an entry at or above `COUNT`: two states that differ only there go on differing only there, and emit
the same bytes. -/
def Obligations.EntriesAboveCountAreNeverRead : Prop :=
  ∀ s s' t : State, SameBelowCount s s' → step s = .next t → ∃ t', step s' = .next t' ∧ SameBelowCount t t'

/-- No command takes `RES` or `NIPFLAGS` as a source: other values there change nothing but those registers. -/
def Obligations.ResAndNipFlagsAreNeverRead : Prop :=
  ∀ (i : Instr) (s t : State) (v : BitVec 16) (f : Byte), exec i s = .next t →
    ∃ t', exec i { s with res := v, nipFlags := f } = .next t' ∧
      t' = { t with res := t'.res, nipFlags := t'.nipFlags } ∧
      (t'.res = t.res ∨ (t'.res = v ∧ t.res = s.res)) ∧
      (t'.nipFlags = t.nipFlags ∨ (t'.nipFlags = f ∧ t.nipFlags = s.nipFlags))
end

