-- ==== Sys2Proof/Laws/Decode.lean ====
section
/-! SUPPORT. Laws/Decode.lean: the fields of a command word as arithmetic on its value, and what each operand format
reads and rejects. -/

namespace Sys2Proof

/-! ## Fields as arithmetic -/

/-- Concatenation is multiplication and addition. -/
theorem toNat_append_add {a b : Nat} (x : BitVec a) (y : BitVec b) :
    (x ++ y).toNat = x.toNat * 2 ^ b + y.toNat := by
  rw [BitVec.toNat_append, ← Nat.shiftLeft_add_eq_or_of_lt y.isLt, Nat.shiftLeft_eq]

/-- A field is division and remainder. -/
theorem toNat_extract {n : Nat} (x : BitVec n) (lo len : Nat) :
    (x.extractLsb' lo len).toNat = x.toNat / 2 ^ lo % 2 ^ len := by
  simp [BitVec.extractLsb'_toNat, Nat.shiftRight_eq_div_pow]

theorem opOf_toNat (cw : CommandWord) : (opOf cw).toNat = cw.toNat / 2 ^ 32 := by
  rw [opOf, toNat_extract]; omega

theorem argOf_toNat (cw : CommandWord) : (argOf cw).toNat = cw.toNat % 2 ^ 32 := by
  rw [argOf, toNat_extract]; omega

/-- A word of an opcode and an operand field. -/
theorem word_toNat (op : Byte) (arg : BitVec 32) :
    (op ++ arg : CommandWord).toNat = op.toNat * 2 ^ 32 + arg.toNat :=
  toNat_append_add op arg

@[simp] theorem opOf_append (op : Byte) (arg : BitVec 32) : opOf (op ++ arg) = op := by
  apply BitVec.eq_of_toNat_eq
  rw [opOf_toNat, word_toNat]; omega

@[simp] theorem argOf_append (op : Byte) (arg : BitVec 32) : argOf (op ++ arg) = arg := by
  apply BitVec.eq_of_toNat_eq
  rw [argOf_toNat, word_toNat]; omega

/-- A word is its opcode above its operand field. -/
theorem opOf_append_argOf (cw : CommandWord) : (opOf cw ++ argOf cw : CommandWord) = cw := by
  apply BitVec.eq_of_toNat_eq
  rw [word_toNat, opOf_toNat, argOf_toNat]; omega

theorem argByte_toNat (b : Byte) : (argByte b).toNat = b.toNat := by
  have h := toNat_append_add 0#24 b
  simp only [BitVec.toNat_ofNat, Nat.zero_mod, Nat.zero_mul, Nat.zero_add] at h
  exact h

theorem argColour_toNat (r g b : Byte) :
    (argColour r g b).toNat = b.toNat * 65536 + g.toNat * 256 + r.toNat := by
  have h1 := toNat_append_add (0#8 ++ b ++ g) r
  have h2 := toNat_append_add (0#8 ++ b) g
  have h3 := toNat_append_add 0#8 b
  rw [h2, h3] at h1
  simp only [BitVec.toNat_ofNat, Nat.zero_mod, Nat.zero_mul, Nat.zero_add] at h1
  unfold argColour; rw [h1]; omega

theorem argFlag_toNat (x : Bool) : (0#31 ++ BitVec.ofBool x : BitVec 32).toNat = x.toNat := by
  cases x <;> rfl

theorem argCount_toNat (n : BitVec 16) : (0#16 ++ n : BitVec 32).toNat = n.toNat := by
  have h := toNat_append_add 0#16 n
  simp only [BitVec.toNat_ofNat, Nat.zero_mod, Nat.zero_mul, Nat.zero_add] at h
  exact h

theorem argDims_toNat (w h : BitVec 16) : (h ++ w : BitVec 32).toNat = h.toNat * 65536 + w.toNat :=
  toNat_append_add h w

/-- A field is zero when its value is. -/
theorem extract_eq_zero {n : Nat} (x : BitVec n) (lo len : Nat) :
    x.extractLsb' lo len = 0#len ↔ x.toNat / 2 ^ lo % 2 ^ len = 0 := by
  rw [← toNat_extract]
  exact ⟨fun h => by rw [h]; simp, fun h => BitVec.eq_of_toNat_eq (by rw [h]; simp)⟩

/-- Selecting a row whose mask keeps the bits from `k` up is a comparison of those bits (30_encoding.md R63). -/
theorem and_mask_eq_iff (cw m mask : CommandWord) (k : Nat) (hm : mask = BitVec.allOnes 40 <<< k) :
    cw &&& mask = m ↔ cw.toNat / 2 ^ k * 2 ^ k = m.toNat := by
  have h : cw &&& mask = (cw >>> k) <<< k := by
    subst hm
    ext i hi
    simp only [BitVec.getElem_and, BitVec.getElem_shiftLeft, BitVec.getElem_ushiftRight, BitVec.getElem_allOnes]
    by_cases h : i < k
    · simp [h]
    · simp only [h, show k + (i - k) = i by omega, ← BitVec.getLsbD_eq_getElem]
      simp
  rw [h, ← BitVec.toNat_inj]
  simp only [BitVec.toNat_shiftLeft, BitVec.toNat_ushiftRight, Nat.shiftLeft_eq, Nat.shiftRight_eq_div_pow]
  rw [Nat.mod_eq_of_lt (Nat.lt_of_le_of_lt (Nat.div_mul_le_self _ _) cw.isLt)]

/-! ## What each format reads -/

@[simp] theorem readByte_argByte (b : Byte) (mk : Byte → Instr) : readByte (argByte b) mk = .ok (mk b) := by
  have h1 : (argByte b).extractLsb' 8 24 = 0#24 := by
    rw [extract_eq_zero, argByte_toNat]; omega
  have h2 : (argByte b).extractLsb' 0 8 = b := by
    apply BitVec.eq_of_toNat_eq; rw [toNat_extract, argByte_toNat]; omega
  rw [readByte, if_pos h1, h2]

@[simp] theorem readColour_argColour (r g b : Byte) (mk : Byte → Byte → Byte → Instr) :
    readColour (argColour r g b) mk = .ok (mk r g b) := by
  have h1 : (argColour r g b).extractLsb' 24 8 = 0#8 := by
    rw [extract_eq_zero, argColour_toNat]; omega
  have h2 : (argColour r g b).extractLsb' 0 8 = r := by
    apply BitVec.eq_of_toNat_eq; rw [toNat_extract, argColour_toNat]; omega
  have h3 : (argColour r g b).extractLsb' 8 8 = g := by
    apply BitVec.eq_of_toNat_eq; rw [toNat_extract, argColour_toNat]; omega
  have h4 : (argColour r g b).extractLsb' 16 8 = b := by
    apply BitVec.eq_of_toNat_eq; rw [toNat_extract, argColour_toNat]; omega
  rw [readColour, if_pos h1, h2, h3, h4]

@[simp] theorem readFlag_argFlag (x : Bool) (mk : Bool → Instr) :
    readFlag (0#31 ++ BitVec.ofBool x) mk = .ok (mk x) := by
  cases x <;> rfl

@[simp] theorem readCount_argCount (n : BitVec 16) (mk : BitVec 16 → Instr) :
    readCount (0#16 ++ n) mk = .ok (mk n) := by
  have h1 : (0#16 ++ n : BitVec 32).extractLsb' 16 16 = 0#16 := by
    rw [extract_eq_zero, argCount_toNat]; omega
  have h2 : (0#16 ++ n : BitVec 32).extractLsb' 0 16 = n := by
    apply BitVec.eq_of_toNat_eq; rw [toNat_extract, argCount_toNat]; omega
  rw [readCount, if_pos h1, h2]

@[simp] theorem readDims_argDims (w h : BitVec 16) (mk : BitVec 16 → BitVec 16 → Instr) :
    readDims (h ++ w) mk = .ok (mk w h) := by
  have h1 : (h ++ w : BitVec 32).extractLsb' 16 16 = h := by
    apply BitVec.eq_of_toNat_eq; rw [toNat_extract, argDims_toNat]; omega
  have h2 : (h ++ w : BitVec 32).extractLsb' 0 16 = w := by
    apply BitVec.eq_of_toNat_eq; rw [toNat_extract, argDims_toNat]; omega
  rw [readDims, h1, h2]

/-! ## What each format has read -/

theorem readNone_ok {arg : BitVec 32} {i j : Instr} (h : readNone arg i = .ok j) : arg = 0#32 ∧ j = i := by
  unfold readNone at h
  split at h
  · cases h; exact ⟨‹_›, rfl⟩
  · cases h

theorem readByte_ok {arg : BitVec 32} {mk : Byte → Instr} {i : Instr} (h : readByte arg mk = .ok i) :
    ∃ b, i = mk b ∧ argByte b = arg := by
  unfold readByte at h
  split at h
  · next h0 =>
    cases h
    refine ⟨_, rfl, BitVec.eq_of_toNat_eq ?_⟩
    rw [extract_eq_zero] at h0
    rw [argByte_toNat, toNat_extract]; omega
  · cases h

theorem readFlag_ok {arg : BitVec 32} {mk : Bool → Instr} {i : Instr} (h : readFlag arg mk = .ok i) :
    ∃ x, i = mk x ∧ (0#31 ++ BitVec.ofBool x : BitVec 32) = arg := by
  unfold readFlag at h
  split at h
  · next h0 =>
    cases h
    refine ⟨_, rfl, BitVec.eq_of_toNat_eq ?_⟩
    rw [extract_eq_zero] at h0
    rw [argFlag_toNat]
    simp only [BitVec.getLsbD, Nat.testBit_zero]
    rcases Nat.mod_two_eq_zero_or_one arg.toNat with h2 | h2 <;> simp only [h2] <;> simp <;> omega
  · cases h

theorem readCount_ok {arg : BitVec 32} {mk : BitVec 16 → Instr} {i : Instr} (h : readCount arg mk = .ok i) :
    ∃ n, i = mk n ∧ (0#16 ++ n : BitVec 32) = arg := by
  unfold readCount at h
  split at h
  · next h0 =>
    cases h
    refine ⟨_, rfl, BitVec.eq_of_toNat_eq ?_⟩
    rw [extract_eq_zero] at h0
    rw [argCount_toNat, toNat_extract]; omega
  · cases h

theorem readColour_ok {arg : BitVec 32} {mk : Byte → Byte → Byte → Instr} {i : Instr}
    (h : readColour arg mk = .ok i) : ∃ r g b, i = mk r g b ∧ argColour r g b = arg := by
  unfold readColour at h
  split at h
  · next h0 =>
    cases h
    refine ⟨_, _, _, rfl, BitVec.eq_of_toNat_eq ?_⟩
    rw [extract_eq_zero] at h0
    rw [argColour_toNat, toNat_extract, toNat_extract, toNat_extract]; omega
  · cases h

theorem readDims_ok {arg : BitVec 32} {mk : BitVec 16 → BitVec 16 → Instr} {i : Instr}
    (h : readDims arg mk = .ok i) : ∃ w h', i = mk w h' ∧ (h' ++ w : BitVec 32) = arg := by
  cases h
  refine ⟨_, _, rfl, BitVec.eq_of_toNat_eq ?_⟩
  rw [argDims_toNat, toNat_extract, toNat_extract]; omega

/-- A word decodes by its opcode, from its operand field. -/
theorem decode_fields {cw : CommandWord} {i : Instr} (h : decode cw = .ok i) :
    opcodeOf i = opOf cw ∧ argFor i = argOf cw := by
  unfold decode at h
  split at h <;> rename_i ho
  case h_1 | h_2 | h_6 | h_11 | h_12 =>
    obtain ⟨b, rfl, h0⟩ := readByte_ok h
    exact ⟨BitVec.eq_of_toNat_eq ho.symm, h0⟩
  case h_3 | h_8 =>
    obtain ⟨r, g, b, rfl, h0⟩ := readColour_ok h
    exact ⟨BitVec.eq_of_toNat_eq ho.symm, h0⟩
  case h_4 | h_5 | h_9 =>
    obtain ⟨h0, rfl⟩ := readNone_ok h
    exact ⟨BitVec.eq_of_toNat_eq ho.symm, h0.symm⟩
  case h_7 =>
    obtain ⟨n, rfl, h0⟩ := readCount_ok h
    exact ⟨BitVec.eq_of_toNat_eq ho.symm, h0⟩
  case h_10 =>
    obtain ⟨x, rfl, h0⟩ := readFlag_ok h
    exact ⟨BitVec.eq_of_toNat_eq ho.symm, h0⟩
  case h_13 | h_14 =>
    obtain ⟨w, h', rfl, h0⟩ := readDims_ok h
    exact ⟨BitVec.eq_of_toNat_eq ho.symm, h0⟩
  case h_15 =>
    cases h
    exact ⟨BitVec.eq_of_toNat_eq ho.symm, rfl⟩
  case h_16 => cases h

end Sys2Proof
end

