-- ==== Sys2Proof/Laws/PalRam.lean ====
section
/-! SUPPORT. Laws/PalRam.lean: the palette RAM: a read after a write, the canonical form kept by every operation, the
full default palette, and the list of the entries below `COUNT`. -/

namespace Sys2Proof.Machine

@[simp] theorem PalRam.read_nil (a : Nat) : PalRam.read [] a = none := rfl

theorem PalRam.read_cons (b : Nat) (c : Colour) (m : PalRam) (a : Nat) :
    PalRam.read ((b, c) :: m) a = if b = a then some c else PalRam.read m a := rfl

/-- A read after a write to the same entry gives the colour written. -/
@[simp] theorem PalRam.read_write_same (m : PalRam) (a : Nat) (c : Colour) :
    PalRam.read (PalRam.write m a c) a = some c := by
  induction m with
  | nil => simp [PalRam.write, PalRam.read]
  | cons e m ih =>
    obtain ⟨b, d⟩ := e
    simp only [PalRam.write]
    split
    · simp [PalRam.read]
    · split
      · simp [PalRam.read]
      · have : b ≠ a := by omega
        simp [PalRam.read, this, ih]

/-- A write leaves every other entry alone (20_memory.md R50). -/
theorem PalRam.read_write_other (m : PalRam) {a b : Nat} (c : Colour) (h : b ≠ a) :
    PalRam.read (PalRam.write m a c) b = PalRam.read m b := by
  induction m with
  | nil => simp [PalRam.write, PalRam.read, h.symm]
  | cons e m ih =>
    obtain ⟨k, d⟩ := e
    simp only [PalRam.write]
    split
    · simp [PalRam.read, h.symm]
    · split
      · subst_vars; simp [PalRam.read, h.symm]
      · simp [PalRam.read, ih]

/-- The two read laws as one equation. -/
theorem PalRam.read_write (m : PalRam) (a b : Nat) (c : Colour) :
    PalRam.read (PalRam.write m a c) b = if b = a then some c else PalRam.read m b := by
  split
  · subst_vars; simp
  · exact PalRam.read_write_other m c ‹_›

theorem PalRam.risingFrom_write (m : PalRam) (lo a : Nat) (c : Colour) (h : m.risingFrom lo = true)
    (ha : lo ≤ a) : (PalRam.write m a c).risingFrom lo = true := by
  induction m generalizing lo with
  | nil => simp [PalRam.write, PalRam.risingFrom, ha]
  | cons e m ih =>
    obtain ⟨b, d⟩ := e
    simp only [PalRam.risingFrom, Bool.and_eq_true, decide_eq_true_eq] at h
    simp only [PalRam.write]
    split
    · simp [PalRam.risingFrom, h.2, *]
    · split
      · subst_vars; simp [PalRam.risingFrom, h]
      · simp [PalRam.risingFrom, h.1, ih (b + 1) h.2 (by omega)]

theorem PalRam.all_write (p : Nat × Colour → Bool) (m : PalRam) (a : Nat) (c : Colour)
    (h : m.all p = true) (ha : p (a, c) = true) : (PalRam.write m a c).all p = true := by
  induction m with
  | nil => simp [PalRam.write, ha]
  | cons e m ih =>
    obtain ⟨b, d⟩ := e
    simp only [List.all_cons, Bool.and_eq_true] at h
    simp only [PalRam.write]
    split
    · simp [ha, h]
    · split
      · simp [ha, h]
      · simp [h.1, ih h.2]

/-- A write to an entry that exists keeps the canonical form. -/
theorem PalRam.wf_write (m : PalRam) (a : Nat) (c : Colour) (h : m.wf = true) (ha : a < 256) :
    (PalRam.write m a c).wf = true := by
  simp only [PalRam.wf, Bool.and_eq_true] at h ⊢
  exact ⟨PalRam.risingFrom_write m 0 a c h.1 (Nat.zero_le a),
    PalRam.all_write _ m a c h.2 (by simpa using ha)⟩

@[simp] theorem PalRam.wf_nil : PalRam.wf [] = true := rfl

theorem PalRam.risingFrom_range' (f : Nat → Colour) (n lo start : Nat) (h : lo ≤ start) :
    PalRam.risingFrom ((List.range' start n).map fun i => (i, f i)) lo = true := by
  induction n generalizing lo start with
  | zero => rfl
  | succ n ih => simp [List.range'_succ, PalRam.risingFrom, h, ih (start + 1) (start + 1) (Nat.le_refl _)]

/-- The full palette is in canonical form. -/
theorem PalRam.wf_fill (f : Byte → Colour) : (PalRam.fill f).wf = true := by
  simp only [PalRam.wf, PalRam.fill, Bool.and_eq_true]
  constructor
  · rw [List.range_eq_range']
    exact PalRam.risingFrom_range' (fun i => f (BitVec.ofNat 8 i)) _ 0 0 (Nat.le_refl 0)
  · simp

theorem PalRam.read_range' (f : Nat → Colour) (n start a : Nat) :
    PalRam.read ((List.range' start n).map fun i => (i, f i)) a =
      if start ≤ a ∧ a < start + n then some (f a) else none := by
  induction n generalizing start with
  | zero =>
    have : ¬ (start ≤ a ∧ a < start + 0) := by omega
    simp
  | succ n ih =>
    simp only [List.range'_succ, List.map_cons, PalRam.read_cons, ih]
    by_cases h : start = a
    · subst h; simp
    · have : (start + 1 ≤ a ∧ a < start + 1 + n) ↔ (start ≤ a ∧ a < start + (n + 1)) := by omega
      simp only [h, if_false, this]

/-- Every entry of the full palette reads as the formula says. -/
theorem PalRam.read_fill (f : Byte → Colour) (a : Nat) :
    (PalRam.fill f).read a = if a < 256 then some (f (BitVec.ofNat 8 a)) else none := by
  simp only [PalRam.fill, List.range_eq_range', Config.palCap]
  rw [PalRam.read_range' (fun i => f (BitVec.ofNat 8 i))]
  simp

/-- The list of `n` entries from `i` on exists exactly when each has been written, and holds them in order. -/
theorem PalRam.entriesFrom_eq_some (m : PalRam) (i n : Nat) (cs : List Colour) :
    m.entriesFrom i n = some cs ↔ cs.length = n ∧ ∀ k : Nat, k < n → m.read (i + k) = cs[k]? := by
  induction n generalizing i cs with
  | zero =>
    simp only [PalRam.entriesFrom, Option.some.injEq]
    constructor
    · rintro rfl; simp
    · rintro ⟨h, -⟩; exact (List.length_eq_zero_iff.mp h).symm
  | succ n ih =>
    simp only [PalRam.entriesFrom]
    constructor
    · intro h
      split at h
      · next c cs' hc hcs =>
        cases h
        obtain ⟨hl, hr⟩ := (ih (i + 1) cs').mp hcs
        refine ⟨by simp [hl], fun k hk => ?_⟩
        cases k with
        | zero => simpa using hc
        | succ k =>
          have := hr k (by omega)
          rw [show i + (k + 1) = i + 1 + k by omega, this]; simp
      · cases h
    · rintro ⟨hl, hr⟩
      cases cs with
      | nil => simp at hl
      | cons c cs' =>
        have h0 := hr 0 (by omega)
        simp only [Nat.add_zero, List.getElem?_cons_zero] at h0
        have hrest : m.entriesFrom (i + 1) n = some cs' := by
          refine (ih (i + 1) cs').mpr ⟨by simpa using hl, fun k hk => ?_⟩
          have := hr (k + 1) (by omega)
          rw [show i + (k + 1) = i + 1 + k by omega] at this
          simpa using this
        simp [h0, hrest]

/-- Where every entry has been written, the list exists. -/
theorem PalRam.entriesFrom_exists (m : PalRam) (i n : Nat)
    (h : ∀ k : Nat, k < n → ∃ c, m.read (i + k) = some c) : ∃ cs, m.entriesFrom i n = some cs := by
  induction n generalizing i with
  | zero => exact ⟨[], rfl⟩
  | succ n ih =>
    obtain ⟨c, hc⟩ := h 0 (by omega)
    obtain ⟨cs, hcs⟩ := ih (i + 1) fun k hk => by
      obtain ⟨d, hd⟩ := h (k + 1) (by omega)
      exact ⟨d, by rw [← hd]; congr 1; omega⟩
    exact ⟨c :: cs, by simp [PalRam.entriesFrom, show m.read i = some c from hc, hcs]⟩

/-- Where one entry has not been written, there is no list. -/
theorem PalRam.entriesFrom_none (m : PalRam) (i n k : Nat) (hk : k < n) (h : m.read (i + k) = none) :
    m.entriesFrom i n = none := by
  cases hcs : m.entriesFrom i n with
  | none => rfl
  | some cs =>
    obtain ⟨hl, hr⟩ := (PalRam.entriesFrom_eq_some m i n cs).mp hcs
    have := hr k hk
    rw [h] at this
    have hlt : k < cs.length := by omega
    simp [List.getElem?_eq_getElem hlt] at this

end Sys2Proof.Machine
end

