-- ==== Sys2Proof/Laws/State.lean ====
section
/-! SUPPORT. Laws/State.lean: one lemma a field for each named update of the state, true by `rfl`, so that no proof
unfolds a record update. -/

namespace Sys2Proof.Machine

/-! ## `State.raise` -/

@[simp] theorem State.raise_phase (k : ErrKind) (s : State) : (s.raise k).phase = .halt := rfl
@[simp] theorem State.raise_err (k : ErrKind) (s : State) : (s.raise k).err = some k := rfl
@[simp] theorem State.raise_count (k : ErrKind) (s : State) : (s.raise k).count = s.count := rfl
@[simp] theorem State.raise_trans (k : ErrKind) (s : State) : (s.raise k).trans = s.trans := rfl
@[simp] theorem State.raise_res (k : ErrKind) (s : State) : (s.raise k).res = s.res := rfl
@[simp] theorem State.raise_nipFlags (k : ErrKind) (s : State) : (s.raise k).nipFlags = s.nipFlags := rfl
@[simp] theorem State.raise_decl (k : ErrKind) (s : State) : (s.raise k).decl = s.decl := rfl
@[simp] theorem State.raise_lds (k : ErrKind) (s : State) : (s.raise k).lds = s.lds := rfl
@[simp] theorem State.raise_tagOk (k : ErrKind) (s : State) : (s.raise k).tagOk = s.tagOk := rfl
@[simp] theorem State.raise_ldExt (k : ErrKind) (s : State) : (s.raise k).ldExt = s.ldExt := rfl
@[simp] theorem State.raise_ldp (k : ErrKind) (s : State) : (s.raise k).ldp = s.ldp := rfl
@[simp] theorem State.raise_w (k : ErrKind) (s : State) : (s.raise k).w = s.w := rfl
@[simp] theorem State.raise_h (k : ErrKind) (s : State) : (s.raise k).h = s.h := rfl
@[simp] theorem State.raise_x (k : ErrKind) (s : State) : (s.raise k).x = s.x := rfl
@[simp] theorem State.raise_y (k : ErrKind) (s : State) : (s.raise k).y = s.y := rfl
@[simp] theorem State.raise_mode4 (k : ErrKind) (s : State) : (s.raise k).mode4 = s.mode4 := rfl
@[simp] theorem State.raise_nib (k : ErrKind) (s : State) : (s.raise k).nib = s.nib := rfl
@[simp] theorem State.raise_pal (k : ErrKind) (s : State) : (s.raise k).pal = s.pal := rfl
@[simp] theorem State.raise_out (k : ErrKind) (s : State) : (s.raise k).out = s.out := rfl
@[simp] theorem State.raise_port (k : ErrKind) (s : State) : (s.raise k).port = s.port := rfl

/-! ## `State.setRes` -/

@[simp] theorem State.setRes_phase (v : BitVec 16) (s : State) : (s.setRes v).phase = s.phase := rfl
@[simp] theorem State.setRes_err (v : BitVec 16) (s : State) : (s.setRes v).err = s.err := rfl
@[simp] theorem State.setRes_count (v : BitVec 16) (s : State) : (s.setRes v).count = s.count := rfl
@[simp] theorem State.setRes_trans (v : BitVec 16) (s : State) : (s.setRes v).trans = s.trans := rfl
@[simp] theorem State.setRes_res (v : BitVec 16) (s : State) : (s.setRes v).res = v := rfl
@[simp] theorem State.setRes_nipFlags (v : BitVec 16) (s : State) : (s.setRes v).nipFlags = s.nipFlags := rfl
@[simp] theorem State.setRes_decl (v : BitVec 16) (s : State) : (s.setRes v).decl = s.decl := rfl
@[simp] theorem State.setRes_lds (v : BitVec 16) (s : State) : (s.setRes v).lds = s.lds := rfl
@[simp] theorem State.setRes_tagOk (v : BitVec 16) (s : State) : (s.setRes v).tagOk = s.tagOk := rfl
@[simp] theorem State.setRes_ldExt (v : BitVec 16) (s : State) : (s.setRes v).ldExt = s.ldExt := rfl
@[simp] theorem State.setRes_ldp (v : BitVec 16) (s : State) : (s.setRes v).ldp = s.ldp := rfl
@[simp] theorem State.setRes_w (v : BitVec 16) (s : State) : (s.setRes v).w = s.w := rfl
@[simp] theorem State.setRes_h (v : BitVec 16) (s : State) : (s.setRes v).h = s.h := rfl
@[simp] theorem State.setRes_x (v : BitVec 16) (s : State) : (s.setRes v).x = s.x := rfl
@[simp] theorem State.setRes_y (v : BitVec 16) (s : State) : (s.setRes v).y = s.y := rfl
@[simp] theorem State.setRes_mode4 (v : BitVec 16) (s : State) : (s.setRes v).mode4 = s.mode4 := rfl
@[simp] theorem State.setRes_nib (v : BitVec 16) (s : State) : (s.setRes v).nib = s.nib := rfl
@[simp] theorem State.setRes_pal (v : BitVec 16) (s : State) : (s.setRes v).pal = s.pal := rfl
@[simp] theorem State.setRes_out (v : BitVec 16) (s : State) : (s.setRes v).out = s.out := rfl
@[simp] theorem State.setRes_port (v : BitVec 16) (s : State) : (s.setRes v).port = s.port := rfl

/-! ## `State.emit` -/

@[simp] theorem State.emit_phase (bs : List Byte) (s : State) : (s.emit bs).phase = s.phase := rfl
@[simp] theorem State.emit_err (bs : List Byte) (s : State) : (s.emit bs).err = s.err := rfl
@[simp] theorem State.emit_count (bs : List Byte) (s : State) : (s.emit bs).count = s.count := rfl
@[simp] theorem State.emit_trans (bs : List Byte) (s : State) : (s.emit bs).trans = s.trans := rfl
@[simp] theorem State.emit_res (bs : List Byte) (s : State) : (s.emit bs).res = s.res := rfl
@[simp] theorem State.emit_nipFlags (bs : List Byte) (s : State) : (s.emit bs).nipFlags = s.nipFlags := rfl
@[simp] theorem State.emit_decl (bs : List Byte) (s : State) : (s.emit bs).decl = s.decl := rfl
@[simp] theorem State.emit_lds (bs : List Byte) (s : State) : (s.emit bs).lds = s.lds := rfl
@[simp] theorem State.emit_tagOk (bs : List Byte) (s : State) : (s.emit bs).tagOk = s.tagOk := rfl
@[simp] theorem State.emit_ldExt (bs : List Byte) (s : State) : (s.emit bs).ldExt = s.ldExt := rfl
@[simp] theorem State.emit_ldp (bs : List Byte) (s : State) : (s.emit bs).ldp = s.ldp := rfl
@[simp] theorem State.emit_w (bs : List Byte) (s : State) : (s.emit bs).w = s.w := rfl
@[simp] theorem State.emit_h (bs : List Byte) (s : State) : (s.emit bs).h = s.h := rfl
@[simp] theorem State.emit_x (bs : List Byte) (s : State) : (s.emit bs).x = s.x := rfl
@[simp] theorem State.emit_y (bs : List Byte) (s : State) : (s.emit bs).y = s.y := rfl
@[simp] theorem State.emit_mode4 (bs : List Byte) (s : State) : (s.emit bs).mode4 = s.mode4 := rfl
@[simp] theorem State.emit_nib (bs : List Byte) (s : State) : (s.emit bs).nib = s.nib := rfl
@[simp] theorem State.emit_pal (bs : List Byte) (s : State) : (s.emit bs).pal = s.pal := rfl
@[simp] theorem State.emit_out (bs : List Byte) (s : State) : (s.emit bs).out = s.out ++ bs := rfl
@[simp] theorem State.emit_port (bs : List Byte) (s : State) : (s.emit bs).port = s.port := rfl

/-! ## `State.assertReset` -/

@[simp] theorem State.assertReset_phase (s : State) : s.assertReset.phase = .idle := rfl
@[simp] theorem State.assertReset_err (s : State) : s.assertReset.err = none := rfl
@[simp] theorem State.assertReset_count (s : State) : s.assertReset.count = 0 := rfl
@[simp] theorem State.assertReset_trans (s : State) : s.assertReset.trans = 0xE3#8 := rfl
@[simp] theorem State.assertReset_res (s : State) : s.assertReset.res = 0 := rfl
@[simp] theorem State.assertReset_nipFlags (s : State) : s.assertReset.nipFlags = 0 := rfl
@[simp] theorem State.assertReset_decl (s : State) : s.assertReset.decl = 0 := rfl
@[simp] theorem State.assertReset_lds (s : State) : s.assertReset.lds = .tag0 := rfl
@[simp] theorem State.assertReset_tagOk (s : State) : s.assertReset.tagOk = false := rfl
@[simp] theorem State.assertReset_ldExt (s : State) : s.assertReset.ldExt = false := rfl
@[simp] theorem State.assertReset_ldp (s : State) : s.assertReset.ldp = 0 := rfl
@[simp] theorem State.assertReset_w (s : State) : s.assertReset.w = 0 := rfl
@[simp] theorem State.assertReset_h (s : State) : s.assertReset.h = 0 := rfl
@[simp] theorem State.assertReset_x (s : State) : s.assertReset.x = 0 := rfl
@[simp] theorem State.assertReset_y (s : State) : s.assertReset.y = 0 := rfl
@[simp] theorem State.assertReset_mode4 (s : State) : s.assertReset.mode4 = false := rfl
@[simp] theorem State.assertReset_nib (s : State) : s.assertReset.nib = 0 := rfl
@[simp] theorem State.assertReset_pal (s : State) : s.assertReset.pal = [] := rfl
@[simp] theorem State.assertReset_out (s : State) : s.assertReset.out = s.out := rfl
@[simp] theorem State.assertReset_port (s : State) : s.assertReset.port = s.port := rfl

/-! ## `openImage` -/

@[simp] theorem openImage_phase (m : Bool) (w h : BitVec 16) (s : State) : (openImage m w h s).phase = (if w ≠ 0#16 ∧ h ≠ 0#16 then .image else .idle) := rfl
@[simp] theorem openImage_err (m : Bool) (w h : BitVec 16) (s : State) : (openImage m w h s).err = s.err := rfl
@[simp] theorem openImage_count (m : Bool) (w h : BitVec 16) (s : State) : (openImage m w h s).count = s.count := rfl
@[simp] theorem openImage_trans (m : Bool) (w h : BitVec 16) (s : State) : (openImage m w h s).trans = s.trans := rfl
@[simp] theorem openImage_res (m : Bool) (w h : BitVec 16) (s : State) : (openImage m w h s).res = s.res := rfl
@[simp] theorem openImage_nipFlags (m : Bool) (w h : BitVec 16) (s : State) : (openImage m w h s).nipFlags = s.nipFlags := rfl
@[simp] theorem openImage_decl (m : Bool) (w h : BitVec 16) (s : State) : (openImage m w h s).decl = s.decl := rfl
@[simp] theorem openImage_lds (m : Bool) (w h : BitVec 16) (s : State) : (openImage m w h s).lds = s.lds := rfl
@[simp] theorem openImage_tagOk (m : Bool) (w h : BitVec 16) (s : State) : (openImage m w h s).tagOk = s.tagOk := rfl
@[simp] theorem openImage_ldExt (m : Bool) (w h : BitVec 16) (s : State) : (openImage m w h s).ldExt = s.ldExt := rfl
@[simp] theorem openImage_ldp (m : Bool) (w h : BitVec 16) (s : State) : (openImage m w h s).ldp = s.ldp := rfl
@[simp] theorem openImage_w (m : Bool) (w h : BitVec 16) (s : State) : (openImage m w h s).w = w := rfl
@[simp] theorem openImage_h (m : Bool) (w h : BitVec 16) (s : State) : (openImage m w h s).h = h := rfl
@[simp] theorem openImage_x (m : Bool) (w h : BitVec 16) (s : State) : (openImage m w h s).x = 0 := rfl
@[simp] theorem openImage_y (m : Bool) (w h : BitVec 16) (s : State) : (openImage m w h s).y = 0 := rfl
@[simp] theorem openImage_mode4 (m : Bool) (w h : BitVec 16) (s : State) : (openImage m w h s).mode4 = m := rfl
@[simp] theorem openImage_nib (m : Bool) (w h : BitVec 16) (s : State) : (openImage m w h s).nib = s.nib := rfl
@[simp] theorem openImage_pal (m : Bool) (w h : BitVec 16) (s : State) : (openImage m w h s).pal = s.pal := rfl
@[simp] theorem openImage_out (m : Bool) (w h : BitVec 16) (s : State) : (openImage m w h s).out = s.out ++ nimHeader w h := rfl
@[simp] theorem openImage_port (m : Bool) (w h : BitVec 16) (s : State) : (openImage m w h s).port = s.port := rfl

/-! ## `State.advance`: it moves the position, and only the last pixel changes the phase -/

@[simp] theorem State.advance_err (s : State) : s.advance.err = s.err := by
  unfold State.advance; split <;> rfl
@[simp] theorem State.advance_count (s : State) : s.advance.count = s.count := by
  unfold State.advance; split <;> rfl
@[simp] theorem State.advance_trans (s : State) : s.advance.trans = s.trans := by
  unfold State.advance; split <;> rfl
@[simp] theorem State.advance_res (s : State) : s.advance.res = s.res := by
  unfold State.advance; split <;> rfl
@[simp] theorem State.advance_nipFlags (s : State) : s.advance.nipFlags = s.nipFlags := by
  unfold State.advance; split <;> rfl
@[simp] theorem State.advance_decl (s : State) : s.advance.decl = s.decl := by
  unfold State.advance; split <;> rfl
@[simp] theorem State.advance_lds (s : State) : s.advance.lds = s.lds := by
  unfold State.advance; split <;> rfl
@[simp] theorem State.advance_tagOk (s : State) : s.advance.tagOk = s.tagOk := by
  unfold State.advance; split <;> rfl
@[simp] theorem State.advance_ldExt (s : State) : s.advance.ldExt = s.ldExt := by
  unfold State.advance; split <;> rfl
@[simp] theorem State.advance_ldp (s : State) : s.advance.ldp = s.ldp := by
  unfold State.advance; split <;> rfl
@[simp] theorem State.advance_w (s : State) : s.advance.w = s.w := by
  unfold State.advance; split <;> rfl
@[simp] theorem State.advance_h (s : State) : s.advance.h = s.h := by
  unfold State.advance; split <;> rfl
@[simp] theorem State.advance_mode4 (s : State) : s.advance.mode4 = s.mode4 := by
  unfold State.advance; split <;> rfl
@[simp] theorem State.advance_nib (s : State) : s.advance.nib = s.nib := by
  unfold State.advance; split <;> rfl
@[simp] theorem State.advance_pal (s : State) : s.advance.pal = s.pal := by
  unfold State.advance; split <;> rfl
@[simp] theorem State.advance_out (s : State) : s.advance.out = s.out := by
  unfold State.advance; split <;> rfl
@[simp] theorem State.advance_port (s : State) : s.advance.port = s.port := by
  unfold State.advance; split <;> rfl

theorem State.advance_x (s : State) :
    s.advance.x = if s.x.toNat + 1 < s.w.toNat then s.x + 1#16 else 0 := by
  unfold State.advance; split <;> rfl

theorem State.advance_y (s : State) :
    s.advance.y = if s.x.toNat + 1 < s.w.toNat then s.y else s.y + 1#16 := by
  unfold State.advance; split <;> rfl

theorem State.advance_phase (s : State) :
    s.advance.phase =
      if s.x.toNat + 1 < s.w.toNat then s.phase
      else if s.y.toNat + 1 = s.h.toNat then .idle else s.phase := by
  unfold State.advance; split <;> rfl

end Sys2Proof.Machine
end

