-- ==== Sys2Proof/Laws/Ops.lean ====
section
/-! SUPPORT. Laws/Ops.lean: what each shared operation can do, said once; later proofs cite these and do not unfold the
operations. -/

namespace Sys2Proof.Machine

/-! ## The phase check -/

theorem inPhase_of_halt {p : Phase} {s : State} {body : Result} (h : s.phase = .halt) :
    inPhase p s body = .next s := by simp [inPhase, h]

theorem inPhase_of_eq {p : Phase} {s : State} {body : Result} (h : s.phase = p) (hp : p ≠ .halt) :
    inPhase p s body = body := by simp [inPhase, h, hp]

theorem inPhase_of_ne {p : Phase} {s : State} {body : Result} (hh : s.phase ≠ .halt) (h : s.phase ≠ p) :
    inPhase p s body = .next (s.raise .sequenceError) := by simp [inPhase, hh, h]

/-- All a command can do before its own tests: nothing in `HALT`, `SequenceError`, or its own body. -/
theorem inPhase_next {p : Phase} {s t : State} {body : Result} (h : inPhase p s body = .next t) :
    (s.phase = .halt ∧ t = s) ∨ (s.phase ≠ .halt ∧ s.phase = p ∧ body = .next t) ∨
      (s.phase ≠ .halt ∧ s.phase ≠ p ∧ t = s.raise .sequenceError) := by
  unfold inPhase at h
  split at h
  · cases h; exact .inl ⟨‹_›, rfl⟩
  · split at h
    · exact .inr (.inl ⟨‹_›, ‹_›, h⟩)
    · cases h; exact .inr (.inr ⟨‹_›, ‹_›, rfl⟩)

/-! ## The emptiness check and the reads -/

theorem needPalette_of_zero {s : State} {body : Result} (h : s.count = 0#9) :
    needPalette s body = .next (s.raise .paletteFormatError) := by simp [needPalette, h]

theorem needPalette_of_ne {s : State} {body : Result} (h : s.count ≠ 0#9) :
    needPalette s body = body := by simp [needPalette, h]

theorem needPalette_next {s t : State} {body : Result} (h : needPalette s body = .next t) :
    (s.count = 0#9 ∧ t = s.raise .paletteFormatError) ∨ (s.count ≠ 0#9 ∧ body = .next t) := by
  unfold needPalette at h
  split at h
  · cases h; exact .inl ⟨‹_›, rfl⟩
  · exact .inr ⟨‹_›, h⟩

@[simp] theorem reading_some {α : Type} (v : α) (k : α → Result) : reading (some v) k = k v := rfl

@[simp] theorem reading_none {α : Type} (k : α → Result) : reading none k = .fault .unwrittenEntry := rfl

theorem reading_next {α : Type} {o : Option α} {k : α → Result} {t : State} (h : reading o k = .next t) :
    ∃ v, o = some v ∧ k v = .next t := by
  cases o with
  | none => cases h
  | some v => exact ⟨v, rfl, h⟩

/-! ## Appending a colour -/

theorem appendColour_of_lt {s : State} {c : Colour} (h : s.count.toNat < 256) :
    appendColour c s = .next { s with pal := s.pal.write s.count.toNat c, count := s.count + 1#9 } := by
  simp [appendColour, h]

theorem appendColour_of_ge {s : State} {c : Colour} (h : 256 ≤ s.count.toNat) :
    appendColour c s = .fault .noSuchEntry := by
  simp [appendColour, Nat.not_lt.mpr h]

/-- All that appending can do. -/
theorem appendColour_next {s t : State} {c : Colour} (h : appendColour c s = .next t) :
    s.count.toNat < 256 ∧ t = { s with pal := s.pal.write s.count.toNat c, count := s.count + 1#9 } := by
  unfold appendColour at h
  split at h
  · cases h; exact ⟨by simpa using ‹_›, rfl⟩
  · cases h

/-! ## The search -/

/-- The loop answers where every entry it reads has been written. -/
theorem searchLoop_exists (pal : PalRam) (trans r g b : Byte) (is : List Nat) (best : Int) (x : Nat)
    (h : ∀ i ∈ is, i ≠ trans.toNat → ∃ c, pal.read i = some c) :
    ∃ y, searchLoop pal trans r g b is best x = some y := by
  induction is generalizing best x with
  | nil => exact ⟨x, rfl⟩
  | cons i is ih =>
    have ih' := fun best x => ih best x fun j hj => h j (List.mem_cons_of_mem i hj)
    simp only [searchLoop]
    split
    · exact ih' best x
    · obtain ⟨c, hc⟩ := h i List.mem_cons_self ‹_›
      simp only [hc]
      split <;> exact ih' _ _

/-- The loop stops at an entry that has not been written. -/
theorem searchLoop_none (pal : PalRam) (trans r g b : Byte) (is : List Nat) (best : Int) (x i : Nat)
    (hi : i ∈ is) (ht : i ≠ trans.toNat) (h : pal.read i = none) :
    searchLoop pal trans r g b is best x = none := by
  induction is generalizing best x with
  | nil => cases hi
  | cons j is ih =>
    simp only [searchLoop]
    by_cases hj : j = i
    · subst hj; simp [ht, h]
    · have hmem : i ∈ is := by
        rcases List.mem_cons.mp hi with h | h
        · exact absurd h.symm hj
        · exact h
      split
      · exact ih best x hmem
      · split
        · rfl
        · split <;> exact ih _ _ hmem

/-- The loop reads only the entries it is given. -/
theorem searchLoop_congr (pal pal' : PalRam) (trans r g b : Byte) (is : List Nat) (best : Int) (x : Nat)
    (h : ∀ i ∈ is, pal.read i = pal'.read i) :
    searchLoop pal trans r g b is best x = searchLoop pal' trans r g b is best x := by
  induction is generalizing best x with
  | nil => rfl
  | cons i is ih =>
    have ih' := fun best x => ih best x fun j hj => h j (List.mem_cons_of_mem i hj)
    simp only [searchLoop, h i List.mem_cons_self]
    split
    · exact ih' _ _
    · split
      · rfl
      · split <;> exact ih' _ _

/-- With no candidate among the indices the loop keeps its index. -/
theorem searchLoop_no_candidate (pal : PalRam) (trans r g b : Byte) (is : List Nat) (best : Int) (x : Nat)
    (h : ∀ i ∈ is, i = trans.toNat) : searchLoop pal trans r g b is best x = some x := by
  induction is with
  | nil => rfl
  | cons i is ih =>
    simp only [searchLoop, h i List.mem_cons_self, if_true]
    exact ih fun j hj => h j (List.mem_cons_of_mem i hj)

/-- What the loop finds: the index it started with, if no candidate is nearer than the bound; else the first candidate
of least distance. -/
theorem searchLoop_spec (pal : PalRam) (trans r g b : Byte) (is : List Nat) (best : Int) (x y : Nat)
    (hs : is.Pairwise (· < ·)) (h : searchLoop pal trans r g b is best x = some y) :
    (y = x ∧ ∀ i ∈ is, i ≠ trans.toNat → ∀ c, pal.read i = some c → best ≤ dist2 c r g b) ∨
    (y ∈ is ∧ y ≠ trans.toNat ∧ ∃ c, pal.read y = some c ∧ dist2 c r g b < best ∧
      ∀ i ∈ is, i ≠ trans.toNat → ∀ d, pal.read i = some d →
        dist2 c r g b ≤ dist2 d r g b ∧ (i < y → dist2 c r g b < dist2 d r g b)) := by
  induction is generalizing best x with
  | nil =>
    simp only [searchLoop, Option.some.injEq] at h
    exact .inl ⟨h.symm, by simp⟩
  | cons i is ih =>
    obtain ⟨hlt, hs'⟩ := List.pairwise_cons.mp hs
    simp only [searchLoop] at h
    split at h
    · next hi =>
      rcases ih best x hs' h with ⟨hy, hall⟩ | ⟨hy, hyt, c, hc, hb, hall⟩
      · refine .inl ⟨hy, fun j hj hjt => ?_⟩
        rcases List.mem_cons.mp hj with rfl | hj
        · exact absurd hi hjt
        · exact hall j hj hjt
      · refine .inr ⟨List.mem_cons_of_mem i hy, hyt, c, hc, hb, fun j hj hjt => ?_⟩
        rcases List.mem_cons.mp hj with rfl | hj
        · exact absurd hi hjt
        · exact hall j hj hjt
    · next hi =>
      split at h
      · cases h
      · next e he =>
        split at h
        · next hd =>
          rcases ih _ _ hs' h with ⟨hy, hall⟩ | ⟨hy, hyt, c, hc, hb, hall⟩
          · subst hy
            refine .inr ⟨List.mem_cons_self, hi, e, he, hd, fun j hj hjt d hjd => ?_⟩
            rcases List.mem_cons.mp hj with rfl | hj
            · rw [he] at hjd; cases hjd; exact ⟨Int.le_refl _, fun hlt => absurd hlt (Nat.lt_irrefl _)⟩
            · have := hlt j hj
              exact ⟨hall j hj hjt d hjd, fun hlt => by omega⟩
          · refine .inr ⟨List.mem_cons_of_mem i hy, hyt, c, hc, Int.lt_trans hb hd, fun j hj hjt d hjd => ?_⟩
            rcases List.mem_cons.mp hj with rfl | hj
            · rw [he] at hjd; cases hjd; exact ⟨Int.le_of_lt hb, fun _ => hb⟩
            · exact hall j hj hjt d hjd
        · next hd =>
          rcases ih best x hs' h with ⟨hy, hall⟩ | ⟨hy, hyt, c, hc, hb, hall⟩
          · refine .inl ⟨hy, fun j hj hjt d hjd => ?_⟩
            rcases List.mem_cons.mp hj with rfl | hj
            · rw [he] at hjd; cases hjd; exact Int.not_lt.mp hd
            · exact hall j hj hjt d hjd
          · refine .inr ⟨List.mem_cons_of_mem i hy, hyt, c, hc, hb, fun j hj hjt d hjd => ?_⟩
            rcases List.mem_cons.mp hj with rfl | hj
            · rw [he] at hjd; cases hjd
              have := Int.not_lt.mp hd
              exact ⟨by omega, fun _ => by omega⟩
            · exact hall j hj hjt d hjd

/-- The indices of the search rise. -/
theorem range_pairwise (n : Nat) : (List.range n).Pairwise (· < ·) := by
  rw [List.range_eq_range']; exact List.pairwise_lt_range'

/-- Where every candidate has been written the search answers. -/
theorem nearest_exists (s : State) (r g b : Byte) (h : s.PaletteWritten) : ∃ x, nearest s r g b = some x := by
  obtain ⟨y, hy⟩ := searchLoop_exists s.pal s.trans r g b (List.range s.count.toNat) Config.bestInit 0
    fun i hi _ => h i (List.mem_range.mp hi)
  exact ⟨BitVec.ofNat 8 y, by simp [nearest, hy]⟩

/-- The search reads `COUNT`, `TRANS` and the entries below `COUNT`, nothing else. -/
theorem nearest_congr (s t : State) (r g b : Byte) (hc : t.count = s.count) (ht : t.trans = s.trans)
    (h : ∀ i : Nat, i < s.count.toNat → t.pal.read i = s.pal.read i) : nearest t r g b = nearest s r g b := by
  simp only [nearest, hc, ht]
  rw [searchLoop_congr t.pal s.pal _ _ _ _ _ _ _ fun i hi => h i (List.mem_range.mp hi)]

/-- A pixel has an index where the palette is written, or where it is not opaque. -/
theorem pixelIndex_exists (s : State) (p : Sample) (h : s.PaletteWritten ∨ sampleA p ≠ 255#8) :
    ∃ idx, pixelIndex s p = some idx := by
  unfold pixelIndex
  split
  · exact ⟨_, rfl⟩
  · next ha =>
    simp only [Config.opaqueAlpha, ne_eq, Decidable.not_not] at ha
    exact nearest_exists s _ _ _ (h.resolve_right fun hn => hn ha)

theorem pixelIndex_congr (s t : State) (p : Sample) (hc : t.count = s.count) (ht : t.trans = s.trans)
    (h : ∀ i : Nat, i < s.count.toNat → t.pal.read i = s.pal.read i) : pixelIndex t p = pixelIndex s p := by
  simp only [pixelIndex, ht, nearest_congr s t _ _ _ hc ht h]

/-! ## Steps -/

theorem step_nil {s : State} (h : s.port = []) : step s = .next s := by simp [step, h]

theorem step_cons {s : State} {e : HostEvent} {rest : List HostEvent} (h : s.port = e :: rest) :
    step s = runEvent e { s with port := rest } := by simp [step, h]

theorem runWord_of_ok {cw : CommandWord} {i : Instr} {s : State} (h : decode cw = .ok i) :
    runWord cw s = exec i s := by simp [runWord, h]

theorem runWord_of_error {cw : CommandWord} {r : Reject} {s : State} (h : decode cw = .error r) :
    runWord cw s = illegalWord s := by simp [runWord, h]

/-- All that an illegal word can do. -/
theorem illegalWord_next {s t : State} (h : illegalWord s = .next t) :
    (s.phase = .halt ∧ t = s) ∨ (s.phase ≠ .halt ∧ t = s.raise .parameterError) := by
  unfold illegalWord at h
  split at h
  · cases h; exact .inl ⟨‹_›, rfl⟩
  · cases h; exact .inr ⟨‹_›, rfl⟩

@[simp] theorem runEvents_nil (s : State) : runEvents [] s = .next s := rfl

theorem runEvents_cons_next {e : HostEvent} {es : List HostEvent} {s t : State} (h : runEvent e s = .next t) :
    runEvents (e :: es) s = runEvents es t := by simp [runEvents, h]

/-- A run in two parts. -/
theorem runEvents_append {es fs : List HostEvent} {s t : State} (h : runEvents es s = .next t) :
    runEvents (es ++ fs) s = runEvents fs t := by
  induction es generalizing s with
  | nil => simp only [runEvents_nil] at h; cases h; rfl
  | cons e es ih =>
    simp only [List.cons_append, runEvents] at h ⊢
    split at h
    · exact ih h
    · cases h
    · cases h

end Sys2Proof.Machine
end

