-- ==== Sys2Proof/Laws/Exec.lean ====
section
/-! SUPPORT. Laws/Exec.lean: what each command can do, said once: if it answers a next state, it was ignored in `HALT`, or
raised `SequenceError` outside its phase, or did one of the things listed. Frames and invariants are read off these. -/

namespace Sys2Proof.Machine

/-- What a command accepted in phase `p` leaves: the state as it was in `HALT`, `SequenceError` in another phase, or in
its own phase what `own` says. -/
def Ran (p : Phase) (s t : State) (own : Prop) : Prop :=
  (s.phase = .halt ∧ t = s) ∨ (s.phase ≠ .halt ∧ s.phase ≠ p ∧ t = s.raise .sequenceError) ∨ (s.phase = p ∧ own)

theorem ran_of_inPhase {p : Phase} {s t : State} {body : Result} {own : Prop} (h : inPhase p s body = .next t)
    (hown : body = .next t → own) : Ran p s t own := by
  rcases inPhase_next h with h | ⟨-, hp, hb⟩ | h
  · exact .inl h
  · exact .inr (.inr ⟨hp, hown hb⟩)
  · exact .inr (.inl h)

theorem next_eq {s t : State} (h : (.next s : Result) = .next t) : t = s := by cases h; rfl

/-! ## Quantizer -/

theorem execQred3_next {b : Byte} {s t : State} (h : execQred3 b s = .next t) :
    Ran .idle s t (t = s.setRes ((reduce3 b).setWidth 16)) := ran_of_inPhase h next_eq

theorem execQred2_next {b : Byte} {s t : State} (h : execQred2 b s = .next t) :
    Ran .idle s t (t = s.setRes ((reduce2 b).setWidth 16)) := ran_of_inPhase h next_eq

theorem execQnear_next {r g b : Byte} {s t : State} (h : execQnear r g b s = .next t) :
    Ran .idle s t ((s.count = 0#9 ∧ t = s.raise .paletteFormatError) ∨
      (s.count ≠ 0#9 ∧ ∃ x, nearest s r g b = some x ∧ t = s.setRes (x.setWidth 16))) :=
  ran_of_inPhase h fun hb => (needPalette_next hb).imp id fun ⟨hc, hr⟩ =>
    have ⟨x, hx, ht⟩ := reading_next hr
    ⟨hc, x, hx, next_eq ht⟩

/-! ## Palette -/

theorem execPdef_next {s t : State} (h : execPdef s = .next t) :
    Ran .idle s t (t = { s with pal := PalRam.fill defaultColour, count := 256#9, trans := 0xE3#8 }) :=
  ran_of_inPhase h next_eq

theorem execPldnip_next {s t : State} (h : execPldnip s = .next t) :
    Ran .idle s t (t =
      { s with
        count := 0, trans := 0xE3#8, decl := 0, lds := .tag0, tagOk := false, ldExt := false, ldp := 0
        nipFlags := 0, phase := .nipLoad }) :=
  ran_of_inPhase h next_eq

/-- A colour stored at `COUNT` by the loader. -/
def stored (c : Colour) (s : State) : State :=
  { s with pal := s.pal.write s.count.toNat c, count := s.count + 1#9, lds := afterColour s }

/-- All that a byte can do to the loader, by position. -/
theorem loadByte_next {b : Byte} {s t : State} (h : loadByte b s = .next t) :
    (s.lds = .tag0 ∧ t = { s with tagOk := b == 0x4E#8, lds := .tag1 }) ∨
    (s.lds = .tag1 ∧ t = { s with tagOk := s.tagOk && b == 0x49#8, lds := .tag2 }) ∨
    (s.lds = .tag2 ∧ t = { s with tagOk := s.tagOk && b == 0x50#8, lds := .tag3 }) ∨
    (s.lds = .tag3 ∧ (s.tagOk && b == 0x30#8) = true ∧ t = { s with lds := .count }) ∨
    (s.lds = .tag3 ∧ (s.tagOk && b == 0x30#8) = false ∧
      t = { s with tagOk := false, lds := .tag0, phase := .idle }) ∨
    (s.lds = .count ∧ t = { s with decl := countOfByte b, lds := .flags }) ∨
    (s.lds = .flags ∧ t = { s with nipFlags := b, ldExt := b.getLsbD 0, lds := .packed }) ∨
    (s.lds = .packed ∧ s.ldExt = true ∧ t = { s with ldp := b, lds := .extension }) ∨
    (s.lds = .packed ∧ s.ldExt = false ∧ s.count.toNat < 256 ∧ t = stored (unpack8 b) s) ∨
    (s.lds = .extension ∧ s.count.toNat < 256 ∧ t = stored (unpack9 s.ldp b) s) ∨
    (s.lds = .trailer ∧ t = { s with trans := b, lds := .tag0, phase := .idle }) := by
  unfold loadByte at h
  split at h
  case h_1 => simp_all [next_eq h]
  case h_2 => simp_all [next_eq h]
  case h_3 => simp_all [next_eq h]
  case h_4 =>
    split at h
    · simp_all [next_eq h]
    · rename_i hl hn
      simp only [Bool.not_eq_true] at hn
      simp [hl, hn, next_eq h]
  case h_5 => simp_all [next_eq h]
  case h_6 => simp_all [next_eq h]
  case h_7 =>
    split at h
    · simp_all [next_eq h]
    · obtain ⟨h1, h2⟩ := appendColour_next h
      simp_all [stored]
  case h_8 =>
    obtain ⟨h1, h2⟩ := appendColour_next h
    simp_all [stored]
  case h_9 => simp_all [next_eq h]

theorem execDin_next {b : Byte} {s t : State} (h : execDin b s = .next t) :
    Ran .nipLoad s t (loadByte b s = .next t) := ran_of_inPhase h id

theorem execPbegin_next {n : BitVec 16} {s t : State} (h : execPbegin n s = .next t) :
    Ran .idle s t ((256 < n.toNat ∧ t = s.raise .paletteFormatError) ∨
      (n.toNat ≤ 256 ∧
        t = { s with count := 0, trans := 0xE3#8, decl := n.setWidth 9, phase := .textImport })) :=
  ran_of_inPhase h fun hb => by
    split at hb
    · exact .inl ⟨‹_›, next_eq hb⟩
    · exact .inr ⟨Nat.not_lt.mp ‹_›, next_eq hb⟩

theorem execPadd_next {r g b : Byte} {s t : State} (h : execPadd r g b s = .next t) :
    Ran .textImport s t ((s.count = s.decl ∧ t = s.raise .sequenceError) ∨
      (s.count ≠ s.decl ∧ s.count.toNat < 256 ∧
        t = { s with pal := s.pal.write s.count.toNat (snapColour r g b), count := s.count + 1#9 })) :=
  ran_of_inPhase h fun hb => by
    split at hb
    · exact .inl ⟨‹_›, next_eq hb⟩
    · exact .inr ⟨‹_›, appendColour_next hb⟩

theorem execPend_next {s t : State} (h : execPend s = .next t) :
    Ran .textImport s t (t = { s with count := if s.count = s.decl then s.count else 0#9, phase := .idle }) :=
  ran_of_inPhase h next_eq

theorem execPstnip_next {x : Bool} {s t : State} (h : execPstnip x s = .next t) :
    Ran .idle s t ((s.count = 0#9 ∧ t = s.raise .paletteFormatError) ∨
      (s.count ≠ 0#9 ∧ ∃ cs, paletteColours s = some cs ∧ t = s.emit (nipEncode x s.count cs s.trans))) :=
  ran_of_inPhase h fun hb => (needPalette_next hb).imp id fun ⟨hc, hr⟩ =>
    have ⟨cs, hcs, ht⟩ := reading_next hr
    ⟨hc, cs, hcs, next_eq ht⟩

theorem execPget_next {k : Byte} {s t : State} (h : execPget k s = .next t) :
    Ran .idle s t ((s.count.toNat ≤ k.toNat ∧ t = s.raise .rangeError) ∨
      (k.toNat < s.count.toNat ∧ ∃ c, s.pal.read k.toNat = some c ∧ t = s.setRes (colourWord c))) :=
  ran_of_inPhase h fun hb => by
    split at hb
    · exact .inl ⟨‹_›, next_eq hb⟩
    · obtain ⟨c, hc, ht⟩ := reading_next hb
      exact .inr ⟨Nat.not_le.mp ‹_›, c, hc, next_eq ht⟩

theorem execTset_next {v : Byte} {s t : State} (h : execTset v s = .next t) :
    Ran .idle s t (t = { s with trans := v }) := ran_of_inPhase h next_eq

/-! ## Bitmap -/

theorem execIbegin8_next {w h' : BitVec 16} {s t : State} (h : execIbegin8 w h' s = .next t) :
    Ran .idle s t ((s.count = 0#9 ∧ t = s.raise .paletteFormatError) ∨
      (s.count ≠ 0#9 ∧ t = openImage false w h' s)) :=
  ran_of_inPhase h fun hb => (needPalette_next hb).imp id fun ⟨hc, hr⟩ => ⟨hc, next_eq hr⟩

theorem execIbegin4_next {w h' : BitVec 16} {s t : State} (h : execIbegin4 w h' s = .next t) :
    Ran .idle s t ((s.count = 0#9 ∧ t = s.raise .paletteFormatError) ∨
      (s.count ≠ 0#9 ∧ (16 < s.count.toNat ∨ w.getLsbD 0 = true) ∧ t = s.raise .constraintError) ∨
      (s.count ≠ 0#9 ∧ s.count.toNat ≤ 16 ∧ w.getLsbD 0 = false ∧ t = openImage true w h' s)) :=
  ran_of_inPhase h fun hb => (needPalette_next hb).imp id fun ⟨hc, hr⟩ => by
    split at hr
    · exact .inl ⟨hc, .inl ‹_›, next_eq hr⟩
    · split at hr
      · exact .inl ⟨hc, .inr ‹_›, next_eq hr⟩
      · exact .inr ⟨hc, Nat.not_lt.mp ‹_›, by simpa using ‹¬ w.getLsbD 0 = true›, next_eq hr⟩

/-- All that an index can do to an open image. -/
theorem codeIndex_cases (idx : Byte) (s : State) :
    (s.mode4 = false ∧ codeIndex idx s = (s.emit [idx]).advance) ∨
    (s.mode4 = true ∧ 15 < idx.toNat ∧ codeIndex idx s = s.raise .rangeError) ∨
    (s.mode4 = true ∧ idx.toNat ≤ 15 ∧ s.x.getLsbD 0 = false ∧
      codeIndex idx s = State.advance { s with nib := lowNibble idx }) ∨
    (s.mode4 = true ∧ idx.toNat ≤ 15 ∧ s.x.getLsbD 0 = true ∧
      codeIndex idx s = (s.emit [packNibbles s.nib (lowNibble idx)]).advance) := by
  unfold codeIndex
  cases hm : s.mode4 with
  | false => exact .inl ⟨rfl, rfl⟩
  | true =>
    refine .inr ?_
    cases hx : s.x.getLsbD 0 <;> by_cases hi : 15 < idx.toNat
    · exact .inl ⟨rfl, hi, by simp [packIndex, hi]⟩
    · refine .inr (.inl ⟨rfl, Nat.not_lt.mp hi, rfl, ?_⟩)
      simp [packIndex, hi, State.emit]
    · exact .inl ⟨rfl, hi, by simp [packIndex, hi]⟩
    · refine .inr (.inr ⟨rfl, Nat.not_lt.mp hi, rfl, ?_⟩)
      cases s
      simp_all [packIndex, State.emit, Nat.not_lt.mpr]

theorem execIpix_next {p : Sample} {s t : State} (h : execIpix p s = .next t) :
    Ran .image s t (∃ idx, pixelIndex s p = some idx ∧ t = codeIndex idx s) :=
  ran_of_inPhase h fun hb =>
    have ⟨x, hx, ht⟩ := reading_next hb
    ⟨x, hx, next_eq ht⟩

end Sys2Proof.Machine
end

