-- ==== Sys2Proof/Laws/PerInstr.lean ====
section
/-! SUPPORT. Laws/PerInstr.lean: two facts about every command as syntax, one lemma a constructor. -/

namespace Sys2Proof.Laws

/-- The word of a command has the command's opcode and operand field at their places (30_encoding.md R60). -/
def Encoding.Statement (i : Instr) : Prop := opOf (encode i) = opcodeOf i ∧ argOf (encode i) = argFor i

/-- Every command is well formed: its operands are as many as its format has, each within its field
(30_encoding.md R61, R62). -/
def OperandsFit.Statement (i : Instr) : Prop := i.wellFormed = true

/-- A bit vector fits a field of its own width. -/
theorem operandsFit_cons {w : Nat} (v : BitVec w) (ws vs : List Nat) :
    operandsFit (w :: ws) (v.toNat :: vs) = operandsFit ws vs := by
  simp [operandsFit, v.isLt]

theorem operandsFit_one {w : Nat} (v : BitVec w) : operandsFit [w] [v.toNat] = true := operandsFit_cons v [] []

theorem operandsFit_two {w : Nat} (a b : BitVec w) : operandsFit [w, w] [a.toNat, b.toNat] = true :=
  (operandsFit_cons a [w] _).trans (operandsFit_one b)

theorem operandsFit_three {w : Nat} (a b c : BitVec w) :
    operandsFit [w, w, w] [a.toNat, b.toNat, c.toNat] = true :=
  (operandsFit_cons a [w, w] _).trans (operandsFit_two b c)

theorem Encoding.qred3 (b : Byte) : Encoding.Statement (.qred3 b) := ⟨opOf_append _ _, argOf_append _ _⟩
theorem Encoding.qred2 (b : Byte) : Encoding.Statement (.qred2 b) := ⟨opOf_append _ _, argOf_append _ _⟩
theorem Encoding.qnear (r g b : Byte) : Encoding.Statement (.qnear r g b) := ⟨opOf_append _ _, argOf_append _ _⟩
theorem Encoding.pdef : Encoding.Statement .pdef := ⟨opOf_append _ _, argOf_append _ _⟩
theorem Encoding.pldnip : Encoding.Statement .pldnip := ⟨opOf_append _ _, argOf_append _ _⟩
theorem Encoding.din (b : Byte) : Encoding.Statement (.din b) := ⟨opOf_append _ _, argOf_append _ _⟩
theorem Encoding.pbegin (n : BitVec 16) : Encoding.Statement (.pbegin n) := ⟨opOf_append _ _, argOf_append _ _⟩
theorem Encoding.padd (r g b : Byte) : Encoding.Statement (.padd r g b) := ⟨opOf_append _ _, argOf_append _ _⟩
theorem Encoding.pend : Encoding.Statement .pend := ⟨opOf_append _ _, argOf_append _ _⟩
theorem Encoding.pstnip (x : Bool) : Encoding.Statement (.pstnip x) := ⟨opOf_append _ _, argOf_append _ _⟩
theorem Encoding.pget (k : Byte) : Encoding.Statement (.pget k) := ⟨opOf_append _ _, argOf_append _ _⟩
theorem Encoding.tset (v : Byte) : Encoding.Statement (.tset v) := ⟨opOf_append _ _, argOf_append _ _⟩
theorem Encoding.ibegin8 (w h : BitVec 16) : Encoding.Statement (.ibegin8 w h) := ⟨opOf_append _ _, argOf_append _ _⟩
theorem Encoding.ibegin4 (w h : BitVec 16) : Encoding.Statement (.ibegin4 w h) := ⟨opOf_append _ _, argOf_append _ _⟩
theorem Encoding.ipix (sample : Sample) : Encoding.Statement (.ipix sample) := ⟨opOf_append _ _, argOf_append _ _⟩

theorem OperandsFit.qred3 (b : Byte) : OperandsFit.Statement (.qred3 b) := operandsFit_one b
theorem OperandsFit.qred2 (b : Byte) : OperandsFit.Statement (.qred2 b) := operandsFit_one b
theorem OperandsFit.qnear (r g b : Byte) : OperandsFit.Statement (.qnear r g b) := operandsFit_three r g b
theorem OperandsFit.pdef : OperandsFit.Statement .pdef := rfl
theorem OperandsFit.pldnip : OperandsFit.Statement .pldnip := rfl
theorem OperandsFit.din (b : Byte) : OperandsFit.Statement (.din b) := operandsFit_one b
theorem OperandsFit.pbegin (n : BitVec 16) : OperandsFit.Statement (.pbegin n) := operandsFit_one n
theorem OperandsFit.padd (r g b : Byte) : OperandsFit.Statement (.padd r g b) := operandsFit_three r g b
theorem OperandsFit.pend : OperandsFit.Statement .pend := rfl
theorem OperandsFit.pstnip (x : Bool) : OperandsFit.Statement (.pstnip x) := by cases x <;> rfl
theorem OperandsFit.pget (k : Byte) : OperandsFit.Statement (.pget k) := operandsFit_one k
theorem OperandsFit.tset (v : Byte) : OperandsFit.Statement (.tset v) := operandsFit_one v
theorem OperandsFit.ibegin8 (w h : BitVec 16) : OperandsFit.Statement (.ibegin8 w h) := operandsFit_two w h
theorem OperandsFit.ibegin4 (w h : BitVec 16) : OperandsFit.Statement (.ibegin4 w h) := operandsFit_two w h
theorem OperandsFit.ipix (sample : Sample) : OperandsFit.Statement (.ipix sample) := operandsFit_one sample

end Sys2Proof.Laws
end

