-- ==== Sys2Proof/Laws/Port.lean ====
section
/-! SUPPORT. Laws/Port.lean: what the host will do next decides nothing about what a command does: the same command on
the same state with another port gives the same result with that port. -/

namespace Sys2Proof.Machine

/-- A result with another port. -/
def withPort (p : List HostEvent) : Result → Result
  | .next t => .next { t with port := p }
  | .fault f => .fault f
  | .refused r => .refused r

theorem advance_port (s : State) (p : List HostEvent) :
    State.advance { s with port := p } = { s.advance with port := p } := by
  simp only [State.advance]; split <;> rfl

theorem exec_port (i : Instr) (s : State) (p : List HostEvent) :
    exec i { s with port := p } = withPort p (exec i s) := by
  have hn : ∀ r g b, nearest { s with port := p } r g b = nearest s r g b := fun _ _ _ => rfl
  have hp : ∀ x, pixelIndex { s with port := p } x = pixelIndex s x := fun _ => rfl
  have hc : paletteColours { s with port := p } = paletteColours s := rfl
  cases i with
  | ipix x =>
    simp only [exec, execIpix, inPhase, hp]
    split <;> [rfl; skip]
    split <;> [skip; rfl]
    cases pixelIndex s x with
    | none => rfl
    | some idx =>
      simp only [reading_some, withPort, Host.Outcome.next.injEq, codeIndex]
      split
      · split
        · rfl
        · next nib bytes _ => exact advance_port (State.emit bytes { s with nib := nib }) p
      · exact advance_port (s.emit [idx]) p
  | din b =>
    simp only [exec, execDin, inPhase, loadByte, appendColour]
    repeat' split
    all_goals simp_all [withPort, afterColour, State.raise]
  | _ =>
    simp only [exec, execQred3, execQred2, execQnear, execPdef, execPldnip, execPbegin, execPadd, execPend, execPstnip,
      execPget, execTset, execIbegin8, execIbegin4, inPhase, needPalette, reading, appendColour, hn, hc]
    (repeat' split) <;> simp_all [withPort, State.raise, State.setRes, State.emit, openImage]

theorem runEvent_port (e : HostEvent) (s : State) (p : List HostEvent) :
    runEvent e { s with port := p } = withPort p (runEvent e s) := by
  cases e with
  | reset => rfl
  | command cw =>
    simp only [runEvent, runWord]
    split
    · exact exec_port _ s p
    · simp only [illegalWord]; split <;> rfl

end Sys2Proof.Machine
end

