-- ==== Sys2Proof/Machine/HostFlow.lean ====
section
/-! DEFINITION. Machine/HostFlow.lean: the host procedures of 70_reset_and_hazards.md R193 to R196 and the host's half of
the text import (41_palette.md R119), as runs of the block. They bind the host, not the block: nothing in the machine
uses this file (log entry 10). -/

namespace Sys2Proof.Machine

/-- A text palette as the host's tokeniser delivers it: both header lines verified, the count line, and the triples it
could parse, of any integer values (30_encoding.md R84; the tokeniser itself is not in the source). -/
structure TextPalette where
  declared : Nat
  triples : List (Int × Int × Int)
  deriving DecidableEq, Repr

/-- A channel value within 0 to 255, as an operand. -/
def channelOf (v : Int) : Option Byte :=
  if 0 ≤ v ∧ v ≤ 255 then some (BitVec.ofNat 8 v.toNat) else none

/-- The triples before the first with a channel outside 0 to 255 (41_palette.md R119). -/
def goodTriples : List (Int × Int × Int) → List (Byte × Byte × Byte)
  | [] => []
  | (r, g, b) :: rest =>
    match channelOf r, channelOf g, channelOf b with
    | some r, some g, some b => (r, g, b) :: goodTriples rest
    | _, _, _ => []

/-- What the host sends for a file that is no NIP stream (41_palette.md R119): the import of a verified text palette;
for an unrecognised file, or a count that does not fit 16 bits (R116), an empty import. -/
def textEvents : Option TextPalette → List HostEvent
  | none => expandPseudo (.ptext 0#16 [])
  | some t =>
    if t.declared < 65536 then
      expandPseudo (.ptext (BitVec.ofNat 16 t.declared) (goodTriples (t.triples.take t.declared)))
    else expandPseudo (.ptext 0#16 [])

/-- Where the palette comes from: the default, or a file's bytes with the host's own reading of them as text. -/
inductive PaletteSource where
  | default
  | file (bytes : List Byte) (text : Option TextPalette)
  deriving DecidableEq, Repr

/-- What the host reports (60_exceptions.md R168). -/
inductive HostReport where
  /-- the bytes of the finished record -/
  | file (bytes : List Byte)
  | failed (kind : ErrKind)
  /-- an argument or dimension that no command word can carry (R194, R195) -/
  | rejected
  /-- the pixels did not fill the image: the run is unfinished (R203, R208) -/
  | unfinished
  deriving DecidableEq, Repr

/-- The process exit code: 0 on success, 1 on any failure (60_exceptions.md R168). -/
def exitCode : HostReport → Nat
  | .file _ => 0
  | .failed _ => 1
  | .rejected => 1
  | .unfinished => 1

/-- The state after a run, if no step stopped. -/
def stateAfter : Result → Option State
  | .next s => some s
  | .fault _ => none
  | .refused _ => none

/-- One `DIN` per byte until `PHASE` returns to `IDLE`; a file that ends before that is malformed and the host resets,
which leaves the empty palette (70_reset_and_hazards.md R196). -/
def sendStream : List Byte → State → Option State
  | [], s => some s.assertReset
  | b :: bs, s =>
    match stateAfter (runEvent (command (.din b)) s) with
    | none => none
    | some t => if t.phase = .idle then some t else sendStream bs t

/-- Choosing the construction (70_reset_and_hazards.md R196). -/
def construct (source : PaletteSource) (s : State) : Option State :=
  match source with
  | .default => stateAfter (runEvent (command .pdef) s)
  | .file bytes text =>
    if bytes.take 4 = [0x4E#8, 0x49#8, 0x50#8, 0x30#8] then
      match stateAfter (runEvent (command .pldnip) s) with
      | none => none
      | some t => sendStream bytes t
    else stateAfter (runEvents (textEvents text) s)

/-- The report after the commands of a record: the block's fault, or, when `PHASE` is `IDLE`, the bytes emitted since
`before` (70_reset_and_hazards.md R195). -/
def reportSince (before after : State) : HostReport :=
  match after.err with
  | some k => .failed k
  | none => if after.phase = .idle then .file (after.out.drop before.out.length) else .unfinished

/-- The palette flow (70_reset_and_hazards.md R194), with its check of `COUNT` (R193). -/
def paletteFlow (source : PaletteSource) (transparent : Option Nat) (extended : Bool) (s : State) :
    Option HostReport :=
  match construct source s.assertReset with
  | none => none
  | some t =>
    if t.count = 0#9 then some (.failed .paletteFormatError)
    else
      match transparent with
      | none => (stateAfter (runEvent (command (.pstnip extended)) t)).map (reportSince t)
      | some v =>
        if v < 256 then
          (stateAfter (runEvents [command (.tset (BitVec.ofNat 8 v)), command (.pstnip extended)] t)).map
            (reportSince t)
        else some .rejected

/-- A decoded image: its dimensions and its samples in row-major order. -/
structure DecodedImage where
  width : Nat
  height : Nat
  pixels : List Sample
  deriving DecidableEq, Repr

/-- The image flow (70_reset_and_hazards.md R195); no image where the decoder failed. -/
def imageFlow (source : PaletteSource) (mode4 : Bool) (image : Option DecodedImage) (s : State) :
    Option HostReport :=
  match construct source s.assertReset with
  | none => none
  | some t =>
    if t.count = 0#9 then some (.failed .paletteFormatError)
    else
      match image with
      | none => some (.failed .imageDecodeError)
      | some im =>
        if im.width < 65536 ∧ im.height < 65536 then
          let w := BitVec.ofNat 16 im.width
          let h := BitVec.ofNat 16 im.height
          let opening := command (if mode4 then .ibegin4 w h else .ibegin8 w h)
          (stateAfter (runEvents (opening :: im.pixels.map fun p => command (.ipix p)) t)).map (reportSince t)
        else some .rejected

end Sys2Proof.Machine
end

