-- ==== Sys2Proof/Tests/Slice0.lean ====
section
/-! SUPPORT. Tests/Slice0.lean: words written out from the spec, ill-formed operands that are refused, one-step tests on small
states, and a witness for the hypotheses of each statement. Expected values are those of 95_test_vectors.md, named by
their vector, or of the rule named. -/

namespace Sys2Proof.Tests

open Sys2Proof.Machine Sys2Proof.Claims

/-! ## States the tests start from -/

/-- A state in a phase with a palette listed from entry 0. -/
def withPalette (phase : Phase) (colours : List Colour) (trans : Byte) : State :=
  { State.reset with
    phase := phase, count := BitVec.ofNat 9 colours.length, trans := trans
    pal := (List.range colours.length).zip colours }

/-- The default palette (V-P1). -/
def full (phase : Phase) : State :=
  { State.reset with phase := phase, count := 256, pal := PalRam.fill defaultColour }

/-- Black and white, transparency index 1 (V-S2, V-P3). -/
def two (phase : Phase) : State := withPalette phase [⟨0, 0, 0⟩, ⟨7, 7, 7⟩] 1

/-- The sixteen colours of program P3. -/
def sixteen : List Colour :=
  [⟨0, 0, 0⟩, ⟨7, 7, 7⟩, ⟨7, 0, 0⟩, ⟨0, 7, 0⟩, ⟨0, 0, 7⟩, ⟨7, 7, 0⟩, ⟨0, 7, 7⟩, ⟨7, 0, 7⟩, ⟨3, 3, 3⟩, ⟨5, 5, 5⟩,
    ⟨4, 0, 0⟩, ⟨0, 4, 0⟩, ⟨0, 0, 4⟩, ⟨2, 2, 2⟩, ⟨6, 6, 6⟩, ⟨1, 1, 1⟩]

/-- A 4-bit image open at a column, four pixels wide and two high. -/
def nibbleImage (x : BitVec 16) (nib : BitVec 4) (trans : Byte) : State :=
  { withPalette .image sixteen trans with w := 4, h := 2, x := x, mode4 := true, nib := nib }

/-- An 8-bit image open at the last pixel of one row. -/
def byteImage (s : State) : State := { s with phase := .image, w := 2, h := 1, x := 1 }

/-- The loader at a position of a stream of three colours (P4). -/
def loading (pos : LoadPos) (ext : Bool) : State :=
  { State.reset with phase := .nipLoad, decl := 3, lds := pos, tagOk := true, ldExt := ext }

/-- The state after a word. -/
def ran (cw : CommandWord) (s : State) : Option State := stateAfter (runWord cw s)

/-- The bytes a word emits. -/
def emitted (cw : CommandWord) (s : State) : Option (List Byte) := (ran cw s).map fun t => t.out.drop s.out.length

/-- The numbers of `PHASE` and `ERR` after a word. -/
def endOf (cw : CommandWord) (s : State) : Option (Nat × Nat) :=
  (ran cw s).map fun t => (t.phase.code.toNat, (errCode t.err).toNat)

/-! ## Words written out from 30_encoding.md R60 to R63 (V-E2) -/

def readAs (cw : CommandWord) : Option Instr := (decode cw).toOption

theorem test_word_qred3 : readAs 0b00000001_00000000_00000000_00000000_11001000 = some (.qred3 200) := by decide
theorem test_word_qred2 : readAs 0b00000010_00000000_00000000_00000000_10000000 = some (.qred2 128) := by decide
theorem test_word_qnear : readAs 0b00000011_00000000_00110010_01100100_11001000 = some (.qnear 200 100 50) := by decide
theorem test_word_pdef : readAs 0b00010000_00000000_00000000_00000000_00000000 = some .pdef := by decide
theorem test_word_pldnip : readAs 0b00010001_00000000_00000000_00000000_00000000 = some .pldnip := by decide
theorem test_word_din : readAs 0b00010010_00000000_00000000_00000000_01001110 = some (.din 0x4E) := by decide
theorem test_word_pbegin : readAs 0b00010011_00000000_00000000_00000001_00000000 = some (.pbegin 256) := by decide
theorem test_word_padd : readAs 0b00010100_00000000_00110010_01100100_11001000 = some (.padd 200 100 50) := by decide
theorem test_word_pend : readAs 0b00010101_00000000_00000000_00000000_00000000 = some .pend := by decide
theorem test_word_pstnip : readAs 0b00010110_00000000_00000000_00000000_00000001 = some (.pstnip true) := by decide
theorem test_word_pget : readAs 0b00010111_00000000_00000000_00000000_11100011 = some (.pget 0xE3) := by decide
theorem test_word_tset : readAs 0b00011000_00000000_00000000_00000000_00000001 = some (.tset 1) := by decide
theorem test_word_ibegin8 : readAs 0b00100000_00000000_00000010_00000001_00101100 = some (.ibegin8 300 2) := by decide
theorem test_word_ibegin4 : readAs 0b00100001_00000000_00000010_00000000_00000100 = some (.ibegin4 4 2) := by decide
theorem test_word_ipix : readAs 0b00100010_00000000_00111000_00100010_00001100 = some (.ipix 0x0038220C) := by decide

/-- The illegal words of V-F1: undefined opcodes beside each family, then one reserved bit each. -/
theorem test_illegal_words :
    ([0x0000000000, 0x0400000000, 0x1900000000, 0x2300000000, 0xFF00000000, 0x0100000100, 0x0301000000,
      0x1000000001, 0x1200000100, 0x1300010000, 0x1600000002, 0x1800000100].map readAs) =
      List.replicate 12 none := by decide

theorem test_decode_table_word : decodeTableWord 40 0x1600000001 = some (.pstnip true) := by decide

/-! ## WellFormed: operands that do not fit are refused (30_encoding.md R67) -/

theorem test_wellformed_none : operandsFit Format.none.widths [0] = false := by decide
theorem test_wellformed_byte_wide : operandsFit Format.byte.widths [256] = false := by decide
theorem test_wellformed_byte_few : operandsFit Format.byte.widths [] = false := by decide
theorem test_wellformed_flag_wide : operandsFit Format.flag.widths [2] = false := by decide
theorem test_wellformed_count_wide : operandsFit Format.count.widths [65536] = false := by decide
theorem test_wellformed_colour_few : operandsFit Format.colour.widths [1, 2] = false := by decide
theorem test_wellformed_colour_wide : operandsFit Format.colour.widths [1, 2, 256] = false := by decide
theorem test_wellformed_dims_many : operandsFit Format.dims.widths [1, 2, 3] = false := by decide
theorem test_wellformed_dims_wide : operandsFit Format.dims.widths [65536, 1] = false := by decide
theorem test_wellformed_pixel_wide : operandsFit Format.pixel.widths [4294967296] = false := by decide
theorem test_wellformed_accepts : (Instr.ibegin8 65535 65535).wellFormed = true := by decide

theorem test_assemble_wide : assemble "PSTNIP" [2] = none := by decide
theorem test_assemble_unknown : assemble "qred3" [2] = none := by decide
theorem test_line_colour : assembleLine "  QNEAR 200, $64, 0x32 ; V-Q3" = some [0x03003264C8] := by decide +kernel
theorem test_line_comment : assembleLine "; nothing" = some [] := by decide +kernel
theorem test_line_error : assembleLine "PBEGIN 65536" = none := by decide +kernel

/-! ## One step of each command -/

/-- V-Q1. -/
theorem test_qred3 : (ran 0x01000000C8 .reset).map (·.res) = some 5 := by decide
/-- V-Q1, a tie goes down. -/
theorem test_qred3_tie : (ran 0x01000000ED .reset).map (·.res) = some 6 := by decide
/-- V-Q2. -/
theorem test_qred2 : (ran 0x020000007F .reset).map (·.res) = some 1 := by decide
/-- V-Q2. -/
theorem test_qred2_above : (ran 0x0200000080 .reset).map (·.res) = some 2 := by decide
/-- V-Q4: the exact match is the transparency entry. -/
theorem test_qnear_skips : (ran 0x0300FF00FF (full .idle)).map (·.res) = some 0xC3 := by decide +kernel
/-- V-Q4. -/
theorem test_qnear : (ran 0x03003264C8 (full .idle)).map (·.res) = some 0xAC := by decide +kernel
/-- V-P1, V-S1. -/
theorem test_pdef :
    ((ran 0x1000000000 .reset).map fun t => (t.count.toNat, t.trans, t.pal.read 0xE3, t.pal.read 5)) =
      some (256, 0xE3, some ⟨7, 0, 7⟩, some ⟨0, 1, 3⟩) := by decide +kernel
/-- V-F2. -/
theorem test_pdef_in_load : endOf 0x1000000000 (loading .tag0 false) = some (7, 6) := by decide
/-- R113. -/
theorem test_pldnip :
    ((ran 0x1100000000 (two .idle)).map fun t => (t.phase.code.toNat, t.count.toNat, t.trans)) =
      some (1, 0, 0xE3) := by decide
/-- P4, command 9: the extension byte stores the colour. -/
theorem test_din_extension :
    ((ran 0x1200000001 { loading .extension true with ldp := 0xAC }).map fun t =>
      (t.pal.read 0, t.count.toNat, t.lds)) = some (some ⟨5, 3, 1⟩, 1, .packed) := by decide
/-- V-P11: a wrong tag ends the load at the fourth byte, with no fault. -/
theorem test_din_wrong_tag :
    ((ran 0x1200000031 (loading .tag3 false)).map fun t => (t.phase, t.err, t.lds, t.tagOk)) =
      some (.idle, none, .tag0, false) := by decide
/-- V-P7. -/
theorem test_pbegin :
    ((ran 0x1300000100 .reset).map fun t => (t.decl.toNat, t.phase)) = some (256, .textImport) := by decide
/-- V-P7. -/
theorem test_pbegin_capacity : endOf 0x1300000101 .reset = some (7, 3) := by decide
/-- V-P8. -/
theorem test_padd :
    ((ran 0x14003264C8 { State.reset with phase := .textImport, decl := 1 }).map fun t =>
      (t.pal.read 0, t.count.toNat)) = some (some ⟨5, 3, 1⟩, 1) := by decide
/-- V-F2: one triple more than declared. -/
theorem test_padd_full :
    endOf 0x1400060504 { two .textImport with decl := 2 } = some (7, 6) := by decide
/-- V-P6. -/
theorem test_pend_short :
    ((ran 0x1500000000 { two .textImport with decl := 3 }).map fun t => (t.count.toNat, t.phase, t.decl.toNat)) =
      some (0, .idle, 3) := by decide
/-- V-P9, command 6. -/
theorem test_pend :
    ((ran 0x1500000000 { two .textImport with decl := 2 }).map fun t => (t.count.toNat, t.phase)) =
      some (2, .idle) := by decide
/-- V-S2. -/
theorem test_pstnip : emitted 0x1600000000 (two .idle) = some [0x4E, 0x49, 0x50, 0x30, 2, 0, 0, 0xFF, 1] := by decide
/-- P2, command 7. -/
theorem test_pstnip_extended :
    emitted 0x1600000001 (two .idle) = some [0x4E, 0x49, 0x50, 0x30, 2, 1, 0, 0, 0xFF, 1, 1] := by decide
/-- V-P13. -/
theorem test_pget : (ran 0x1700000001 (two .idle)).map (·.res) = some 0x1FF := by decide
/-- V-P13. -/
theorem test_pget_range : endOf 0x1700000002 (two .idle) = some (7, 7) := by decide
/-- R123. -/
theorem test_tset : (ran 0x1800000001 .reset).map (·.trans) = some 1 := by decide
/-- V-F2. -/
theorem test_tset_in_import : endOf 0x1800000000 (two .textImport) = some (7, 6) := by decide
/-- V-B1. -/
theorem test_ibegin8 :
    emitted 0x200002012C (two .idle) = some [0x4E, 0x49, 0x4D, 0x30, 0x2C, 1, 2, 0] := by decide
/-- V-B1: a zero width opens nothing. -/
theorem test_ibegin8_zero :
    ((ran 0x2000050000 (two .idle)).map fun t => (t.phase, t.w.toNat, t.h.toNat)) = some (.idle, 0, 5) := by decide
/-- V-B5: sixteen colours, even width. -/
theorem test_ibegin4 :
    ((ran 0x2100020004 (withPalette .idle sixteen 0)).map fun t => (t.phase, t.mode4)) =
      some (.image, true) := by decide
/-- V-B5: seventeen colours. -/
theorem test_ibegin4_colours :
    endOf 0x2100020002 (withPalette .idle (sixteen ++ [⟨1, 2, 3⟩]) 0) = some (7, 5) := by decide
/-- P3, command 22: the odd column completes the byte `23`. -/
theorem test_ipix_odd : emitted 0x22FF00FF00 (nibbleImage 1 2 0) = some [0x23] := by decide +kernel
/-- V-B7: the transparency index does not fit a nibble. -/
theorem test_ipix_range : endOf 0x2200000000 (nibbleImage 0 0 0xE3) = some (7, 7) := by decide

/-- V-B7: the readings of `NIBBLE_OVERFLOW`, index 1 and then `E3`. -/
theorem test_nibble_readings :
    (packIndex .mask true 1 0xE3).map (·.2) = some [0x13] ∧ (packIndex .orUnmasked true 1 0xE3).map (·.2) = some [0xF3] ∧
    packIndex .fault true 1 0xE3 = none := by decide

/-- V-F4: `HALT` ignores a legal word. -/
theorem test_halt : ran 0x1000000000 { State.reset with phase := .halt, err := some .parameterError } =
    some { State.reset with phase := .halt, err := some .parameterError } := by decide

/-- V-P3 through the host's palette flow, written back as it stood (70_reset_and_hazards.md R194, R196). -/
theorem test_palette_flow :
    paletteFlow (.file [0x4E, 0x49, 0x50, 0x30, 2, 0, 0, 0xFF, 1] none) none false .reset =
      some (.file [0x4E, 0x49, 0x50, 0x30, 2, 0, 0, 0xFF, 1]) := by decide +kernel
/-- A triple out of range empties the palette (41_palette.md R119, R193). -/
theorem test_palette_flow_text :
    paletteFlow (.file [0x4A, 0x41, 0x53, 0x43] (some ⟨2, [(1, 1, 1), (256, 0, 0)]⟩)) none false .reset =
      some (.failed .paletteFormatError) := by decide +kernel
/-- P1 through the host's image flow, with the default palette (R195). -/
theorem test_image_flow :
    imageFlow .default false (some ⟨2, 1, [0xFFFF0000, 0xFF6D2400]⟩) .reset =
      some (.file [0x4E, 0x49, 0x4D, 0x30, 2, 0, 1, 0, 3, 5]) := by decide +kernel

/-! ## Witnesses: a concrete state and operands for the hypotheses of each statement -/

/-- Entries listed from 0 are written. -/
theorem withPalette_written (phase : Phase) (colours : List Colour) (trans : Byte)
    (h : ∀ i : Nat, i < (withPalette phase colours trans).count.toNat →
      ((withPalette phase colours trans).pal.read i).isSome = true) :
    (withPalette phase colours trans).PaletteWritten := fun i hi => Option.isSome_iff_exists.mp (h i hi)

theorem two_written (phase : Phase) : (two phase).PaletteWritten :=
  withPalette_written phase _ _ (by simp only [withPalette]; decide)

theorem sixteen_written (phase : Phase) (trans : Byte) : (withPalette phase sixteen trans).PaletteWritten :=
  withPalette_written phase _ _ (by simp only [withPalette]; decide +kernel)

theorem full_written (phase : Phase) : (full phase).PaletteWritten := fun i hi =>
  ⟨defaultColour (BitVec.ofNat 8 i), by
    have h : i < 256 := hi
    simp only [full, PalRam.read_fill, h, if_true]⟩

theorem test_witness_EncodeInvertsDecode : decode 0x01000000C8 = .ok (.qred3 200) := rfl

theorem test_witness_DecodeSelectsOpcodeRow :
    (∃ row ∈ opcodeRows, Selects 0x1600000001 row) ∧ (∀ row ∈ opcodeRows, ¬ Selects 0x1600000002 row) := by
  unfold Selects; decide

theorem test_witness_WordMatchingNoRowRaisesParameterError :
    ({ State.reset with port := [.command 0x1900000000] } : State).phase ≠ .halt ∧
    (∀ row ∈ opcodeRows, ¬ Selects 0x1900000000 row) ∧ (∃ row ∈ opcodeRows, Selects 0x1800000000 row) := by
  unfold Selects; decide

theorem test_witness_StepRunsDecodedCommand :
    ({ State.reset with port := [.command 0x1000000000] } : State).port = .command 0x1000000000 :: [] ∧
    decode 0x1000000000 = .ok .pdef := ⟨rfl, rfl⟩

theorem test_witness_EmptyPortWaits : State.reset.port = [] := rfl

theorem test_witness_StepsRunThePort :
    ({ State.reset with port := [.command 0x1000000000, .reset] } : State).port =
      [.command 0x1000000000] ++ [.reset] := rfl

theorem test_witness_ResetInputRestoresResetState :
    ({ full .image with port := [.reset] } : State).port = .reset :: [] := rfl

/-- One state outside the accepting phase for each such phase. -/
theorem test_witness_CommandOutsideItsPhaseRaisesSequenceError :
    (full .image).phase ≠ .halt ∧ (full .image).phase ≠ acceptedIn (.qred3 0) ∧
    State.reset.phase ≠ .halt ∧ State.reset.phase ≠ acceptedIn (.din 0) ∧
    State.reset.phase ≠ acceptedIn .pend ∧ State.reset.phase ≠ acceptedIn (.ipix 0) := by decide

/-- The word has this opcode and a bit of the reserved field set. -/
def hasReserved (op : Byte) (lo n : Nat) (cw : CommandWord) : Bool :=
  decide (cw.extractLsb' 32 8 = op ∧ cw.extractLsb' lo n ≠ 0#n)

/-- A word with the lowest and one with the highest reserved bit set, for each opcode that has one. -/
theorem test_witness_reserved_bits :
    ([0x0100000100, 0x0180000000].all (hasReserved 0x01 8 24) &&
    [0x0200000100, 0x0280000000].all (hasReserved 0x02 8 24) &&
    [0x1200000100, 0x1280000000].all (hasReserved 0x12 8 24) &&
    [0x1700000100, 0x1780000000].all (hasReserved 0x17 8 24) &&
    [0x1800000100, 0x1880000000].all (hasReserved 0x18 8 24) &&
    [0x0301000000, 0x0380000000].all (hasReserved 0x03 24 8) &&
    [0x1401000000, 0x1480000000].all (hasReserved 0x14 24 8) &&
    [0x1000000001, 0x1080000000].all (hasReserved 0x10 0 32) &&
    [0x1100000001, 0x1180000000].all (hasReserved 0x11 0 32) &&
    [0x1500000001, 0x1580000000].all (hasReserved 0x15 0 32) &&
    [0x1300010000, 0x1380000000].all (hasReserved 0x13 16 16) &&
    [0x1600000002, 0x1680000000].all (hasReserved 0x16 1 31)) = true := by decide

/-- A halted block, with and without the reset input asserted. -/
theorem test_witness_HaltIgnoresEveryWord :
    let s : State := { State.reset with phase := .halt, err := some .rangeError, port := [.command 0x1000000000] }
    s.phase = .halt ∧ s.port = .command 0x1000000000 :: [] := ⟨rfl, rfl⟩

theorem test_witness_OnlyResetLeavesHalt :
    let s : State := { State.reset with phase := .halt, err := some .rangeError, port := [.reset] }
    s.phase = .halt ∧ (stateAfter (step s)).map (·.phase) = some .idle := by decide

/-- Words that complete, and one for each of the five faults. -/
theorem test_witness_WordsCompleteOrFaultPrecisely :
    endOf 0x01000000C8 .reset = some (0, 0) ∧ endOf 0x0000000000 .reset = some (7, 1) ∧
    endOf 0x1600000000 .reset = some (7, 3) ∧ endOf 0x2100020003 (two .idle) = some (7, 5) ∧
    endOf 0x2200000000 .reset = some (7, 6) ∧ endOf 0x1700000000 .reset = some (7, 7) := by decide

/-- One transition of each kind; V-P11 for the two ways a tag is wrong at its fourth byte. -/
theorem test_witness_PhaseTransitions :
    endOf 0x1100000000 .reset = some (1, 0) ∧ endOf 0x1200000002 (loading .trailer false) = some (0, 0) ∧
    endOf 0x1200000031 (loading .tag3 false) = some (0, 0) ∧
    endOf 0x1200000030 { loading .tag3 false with tagOk := false } = some (0, 0) ∧ endOf 0x1300000002 .reset = some (2, 0) ∧
    endOf 0x1500000000 (two .textImport) = some (0, 0) ∧ endOf 0x2000010001 (two .idle) = some (3, 0) ∧
    endOf 0x2200000000 (byteImage (two .idle)) = some (0, 0) ∧ endOf 0x1500000000 .reset = some (7, 6) := by decide

/-- A command that changes each register. -/
theorem test_witness_RegistersHaveOnlyTheirWriters :
    (ran 0x01000000C8 .reset).map (·.res) ≠ some State.reset.res ∧
    (ran 0x1000000000 .reset).map (·.count) ≠ some State.reset.count ∧
    (ran 0x1800000001 .reset).map (·.trans) ≠ some State.reset.trans ∧
    (ran 0x1300000002 .reset).map (·.decl) ≠ some State.reset.decl ∧
    (ran 0x120000004E (loading .tag0 false)).map (·.lds) ≠ some (loading .tag0 false).lds ∧
    (ran 0x2000010002 (two .idle)).map (·.w) ≠ some (two .idle).w ∧
    (ran 0x2200000000 (byteImage (two .idle))).map (·.y) ≠ some (byteImage (two .idle)).y ∧
    (ran 0x2200000000 (nibbleImage 0 0 3)).map (·.nib) ≠ some (nibbleImage 0 0 3).nib := by decide +kernel

theorem test_witness_PaletteRamFrame :
    (ran 0x14003264C8 { State.reset with phase := .textImport, decl := 1 }).map (·.pal.read 0) ≠
      some (State.reset.pal.read 0) := by decide

theorem test_witness_OutputOnlyGrows : emitted 0x1600000000 (two .idle) ≠ some [] := by decide

theorem test_witness_PaletteFixedWhileImageOpen :
    (byteImage (two .idle)).phase = .image ∧ (ran 0x2200000000 (byteImage (two .idle))).isSome = true := by decide

theorem test_witness_ReduceFindsLowestNearestLevel :
    lut3 ≠ [] ∧ lut3[0]? = some 0 ∧ lut3[7]? = some 255 := by decide

/-- The full palette, and one entry beside the transparency entry. -/
theorem test_witness_SearchFindsLowestNearestCandidate :
    ((full .idle).count.toNat ≤ 256 ∧ (full .idle).PaletteWritten ∧ HasCandidate (full .idle)) ∧
    ((two .idle).count.toNat ≤ 256 ∧ (two .idle).PaletteWritten ∧ HasCandidate (two .idle)) :=
  ⟨⟨by decide, full_written _, 0, by decide, by decide⟩, ⟨by decide, two_written _, 0, by decide, by decide⟩⟩

theorem test_witness_SearchWithoutCandidateReturnsZero :
    ¬ HasCandidate (withPalette .idle [⟨7, 0, 0⟩] 0) ∧ 1 ≤ (withPalette .idle [⟨7, 0, 0⟩] 0).count.toNat := by
  refine ⟨?_, by decide⟩
  rintro ⟨i, hi, hn⟩
  have h : i < 1 := hi
  have h' : i ≠ 0 := hn
  omega

/-- An answer, a candidate that matches exactly, and two equal entries of which the lower is the transparency entry. -/
theorem test_witness_SearchConsequences :
    (two .idle).count.toNat ≤ 256 ∧ (two .idle).PaletteWritten ∧ nearest (two .idle) 0 0 0 = some 0 ∧
    HasCandidate (two .idle) ∧ (two .idle).pal.read 0 = some ⟨0, 0, 0⟩ ∧ 0 ≠ (two .idle).trans.toNat ∧
    (0#8).toNat = expand3 0 ∧
    nearest (withPalette .idle [⟨2, 0, 0⟩, ⟨2, 0, 0⟩] 0) 73 0 0 = some 1 :=
  ⟨by decide, two_written _, by decide +kernel, ⟨0, by decide, by decide⟩, by decide, by decide, by decide,
    by decide +kernel⟩

/-- The conditions of `QRED3`, `QRED2`, `PDEF`, `PLDNIP`, `TSET`, `QNEAR` and `PSTNIP`: `IDLE`, with and without a
palette. -/
theorem test_witness_idle_commands :
    State.reset.phase = .idle ∧ State.reset.count = 0 ∧ (two .idle).phase = .idle ∧ (two .idle).count ≠ 0 ∧
    (two .idle).PaletteWritten := ⟨rfl, rfl, rfl, by decide, two_written _⟩

/-- Every position of the loader, in `NIPLOAD`, with a tag byte that ends the tag and one that does not. -/
theorem test_witness_DinReadsHeaderAndTrailer :
    (∀ pos ∈ [LoadPos.tag0, .tag1, .tag2, .tag3, .count, .flags, .trailer],
      (loading pos false).phase = .nipLoad ∧ (loading pos false).lds = pos) ∧
    (loading .tag3 false).tagOk = true ∧ (0x31#8) ≠ 0x30 := by decide

/-- Colour positions in both modes, with the first entry and with the last. -/
theorem test_witness_DinReadsColours :
    (loading .packed false).phase = .nipLoad ∧ (loading .packed false).ldExt = false ∧
    (loading .packed true).ldExt = true ∧ (loading .packed false).lds = .packed ∧
    (loading .extension true).lds = .extension ∧ (loading .packed false).count.toNat < 256 ∧
    ({ loading .extension true with count := 255 } : State).count.toNat < 256 := by decide

/-- A record of two colours, an extended one, and a wrong tag. -/
theorem test_witness_LoaderRefinesNipDecode :
    State.reset.phase = .idle ∧
    nipDecode [0x4E, 0x49, 0x50, 0x30, 2, 0, 0, 0xFF, 1] = some ⟨[⟨0, 0, 0⟩, ⟨7, 7, 7⟩], 1⟩ ∧
    nipDecode [0x4E, 0x49, 0x50, 0x30, 1, 1, 0x2A, 0, 7] = some ⟨[⟨1, 2, 4⟩], 7⟩ ∧
    nipDecode [0x4E, 0x49, 0x50, 0x31] = some ⟨[], 0xE3⟩ := by decide

/-- The largest count that is accepted and the smallest that is not. -/
theorem test_witness_PbeginOpensImport :
    State.reset.phase = .idle ∧ 256 < (257#16).toNat ∧ (256#16).toNat ≤ 256 := by decide

/-- Room for a colour, for the last one, and none left. -/
theorem test_witness_PaddAppendsSnappedColour :
    let s : State := { State.reset with phase := .textImport, decl := 256 }
    s.phase = .textImport ∧ s.count ≠ s.decl ∧ s.count.toNat < 256 ∧
    ({ s with count := 255 } : State).count.toNat < 256 ∧ ({ s with count := 256 } : State).count = s.decl := by decide

theorem test_witness_PendChecksDeclaredCount :
    let s : State := two .textImport
    s.phase = .textImport ∧ s.count ≠ s.decl ∧ ({ s with decl := 2 } : State).count = 2 := by decide

/-- As many triples as declared, fewer, and more. -/
theorem test_witness_TextImportBuildsSnappedPalette :
    State.reset.phase = .idle ∧ (2#16).toNat ≤ 256 ∧
    ([(0, 0, 0), (255, 255, 255)] : List (Byte × Byte × Byte)).length = (2#16).toNat ∧
    ([(0, 0, 0)] : List (Byte × Byte × Byte)).length < (2#16).toNat ∧
    (0#16).toNat < ([(0, 0, 0)] : List (Byte × Byte × Byte)).length := by decide

/-- The last entry of a palette, and the first that is not. -/
theorem test_witness_PgetReadsEntryInRange :
    (two .idle).phase = .idle ∧ (1#8).toNat < (two .idle).count.toNat ∧
    (two .idle).pal.read (1#8).toNat = some ⟨7, 7, 7⟩ ∧ (two .idle).count.toNat ≤ (2#8).toNat := by decide

/-- Palettes of two colours and of 256. -/
theorem test_witness_WrittenPaletteLoadsBack :
    ((two .idle).phase = .idle ∧ 1 ≤ (two .idle).count.toNat ∧ (two .idle).count.toNat ≤ 256 ∧
      (two .idle).PaletteWritten) ∧
    ((full .idle).phase = .idle ∧ 1 ≤ (full .idle).count.toNat ∧ (full .idle).count.toNat ≤ 256 ∧
      (full .idle).PaletteWritten) :=
  ⟨⟨rfl, by decide, by decide, two_written _⟩, ⟨rfl, by decide, by decide, full_written _⟩⟩

theorem test_witness_LoadedStreamWritesBack :
    let bytes : List Byte := [0x4E, 0x49, 0x50, 0x30, 1, 3, 0x2A, 0xFE, 7]
    bytes.take 4 = [0x4E, 0x49, 0x50, 0x30] ∧ nipDecode bytes = some ⟨[⟨1, 2, 4⟩], 7⟩ ∧
    (bytes.getD 5 0).getLsbD 0 = true := by decide

/-- Opaque, and the alpha value nearest to it. -/
theorem test_witness_PixelIndexRule : (254 : Byte) ≠ 255 ∧ (255 : Byte) = 255 := by decide

/-- Each precondition of the opening commands at its boundary. -/
theorem test_witness_Ibegin4ChecksAndOpensImage :
    (withPalette .idle sixteen 0).phase = .idle ∧ (withPalette .idle sixteen 0).count ≠ 0 ∧
    (withPalette .idle sixteen 0).count.toNat ≤ 16 ∧ 16 < (withPalette .idle (sixteen ++ [⟨1, 2, 3⟩]) 0).count.toNat ∧
    (4#16).toNat % 2 = 0 ∧ (3#16).toNat % 2 = 1 := by decide

theorem test_witness_Ibegin8OpensImage :
    State.reset.phase = .idle ∧ State.reset.count = 0 ∧ (two .idle).phase = .idle ∧ (two .idle).count ≠ 0 := by decide

theorem test_witness_IpixEmitsIndexByte :
    (byteImage (two .idle)).phase = .image ∧ (byteImage (two .idle)).mode4 = false ∧
    (byteImage (two .idle)).PaletteWritten ∧ (0xFE000000#32).extractLsb' 24 8 ≠ 255#8 :=
  ⟨rfl, rfl, two_written .idle, by decide⟩

/-- Both columns of a pair, with an index of 15 and one of 16. -/
theorem test_witness_IpixPacksIndexNibbles :
    (nibbleImage 0 0 15).phase = .image ∧ (nibbleImage 0 0 15).mode4 = true ∧ (nibbleImage 0 0 15).PaletteWritten ∧
    (nibbleImage 0 0 15).x.toNat % 2 = 0 ∧ (nibbleImage 3 0 15).x.toNat % 2 = 1 ∧
    pixelIndex (nibbleImage 0 0 15) 0 = some 15 ∧ pixelIndex (nibbleImage 0 0 16) 0 = some 16 :=
  ⟨rfl, rfl, sixteen_written .image 15, by decide, by decide, by decide, by decide⟩

/-- A one-pixel image in 8-bit mode, and a two-pixel image in 4-bit mode with a pixel that is not opaque. -/
theorem test_witness_ImageRunEmitsNimEncoding :
    ((two .idle).phase = .idle ∧ 1 ≤ (two .idle).count.toNat ∧ (two .idle).count.toNat ≤ 256 ∧
      (two .idle).PaletteWritten ∧ (1#16) ≠ 0 ∧ ([0xFFFFFFFF] : List Sample).length = (1#16).toNat * (1#16).toNat) ∧
    ((withPalette .idle sixteen 15).phase = .idle ∧ 1 ≤ (withPalette .idle sixteen 15).count.toNat ∧
      (withPalette .idle sixteen 15).count.toNat ≤ 16 ∧ (withPalette .idle sixteen 15).PaletteWritten ∧
      (2#16).toNat % 2 = 0 ∧ ([0, 0xFF242424] : List Sample).length = (2#16).toNat * (1#16).toNat ∧
      (withPalette .idle sixteen 15).trans.toNat ≤ 15) :=
  ⟨⟨rfl, by decide, by decide, two_written _, by decide, by decide⟩,
    ⟨rfl, by decide, by decide, sixteen_written _ _, by decide, by decide, by decide⟩⟩

theorem test_witness_ZeroDimensionImageIsItsHeader :
    (two .idle).phase = .idle ∧ (two .idle).count ≠ 0 ∧ ((0#16) = 0 ∨ (5#16) = 0) ∧ (two .idle).count.toNat ≤ 16 ∧
    (0#16).toNat % 2 = 0 := by decide

/-- A state with the invariant that is not the reset state, with a command to run. -/
theorem test_witness_StepKeepsInvariant :
    ({ two .idle with port := [.command 0x1000000000] } : State).Inv where
  r30 :=
    { count_le := by decide, decl_le := by decide, err_halt := by decide, lds_zero := by decide
      load_open := by decide, load_full := by decide, import_le := by decide, image_open := by decide
      image_nibbles := by decide, written := two_written .idle, flags_ext := by decide }
  load_header := by decide
  load_counted := by decide
  pal_wf := by decide

/-- A reachable state of the last clause of R30 (d), halted while the trailing byte is awaited. -/
theorem test_witness_ReachableStatesSatisfyR30 :
    ((stateAfter (runEvents ([0x1100000000, 0x120000004E, 0x1200000049, 0x1200000050, 0x1200000030, 0x1200000001,
      0x1200000000, 0x12000000FF, 0x1000000000].map .command) .reset)).map fun t =>
        (t.phase, t.lds, t.count.toNat, t.decl.toNat)) = some (.halt, .trailer, 1, 1) := by decide

/-- A state outside the invariant for each stop. -/
theorem test_witness_MissingEntriesStopCommands :
    let s : State := { State.reset with count := 2 }
    s.phase = .idle ∧ (1#8).toNat < s.count.toNat ∧ s.pal.read 1 = none ∧ 1 ≠ s.trans.toNat ∧
    256 ≤ ({ State.reset with count := 256, phase := .textImport } : State).count.toNat ∧
    ({ State.reset with count := 256, phase := .textImport } : State).count ≠ State.reset.decl ∧
    256 ≤ ({ loading .extension true with count := 256 } : State).count.toNat := by decide

/-- Two states that differ in an entry at `COUNT`. -/
theorem test_witness_EntriesAboveCountAreNeverRead :
    SameBelowCount (two .idle) { two .idle with pal := (two .idle).pal.write 2 ⟨1, 1, 1⟩ } := by
  refine ⟨fun i hi => ?_, rfl⟩
  have h : i < 2 := hi
  exact (PalRam.read_write_other _ _ (Nat.ne_of_lt h)).symm

theorem test_witness_ResAndNipFlagsAreNeverRead :
    (stateAfter (exec (.pstnip true) (two .idle))).isSome = true := by decide

end Sys2Proof.Tests
end

section
/-! Proofs of the statements of 00_scope.md: a step is one event taken from the port, and a run of steps is the run of the
events (R9, 20_memory.md R52). -/

namespace Sys2Proof.Machine

/-- A result and, unless it is a stop, what comes after it: the shape that steps and runs of events share. -/
def andThen (r : Result) (next : State → Result) : Result :=
  match r with
  | .next t => next t
  | .fault f => .fault f
  | .refused q => .refused q

/-- The run of the machine behind the host's interface, at the model's own types. -/
abbrev coreRun (k : Nat) (s : State) : Result := Host.Core.run Sys2Proof.core k s

theorem coreRun_succ (k : Nat) (s : State) :
    coreRun (k + 1) s = andThen (step s) (coreRun k) := by
  have hstep : Sys2Proof.core.step s = step s := rfl
  simp only [coreRun, Host.Core.run, hstep]
  cases step s <;> rfl

theorem runEvents_cons (e : HostEvent) (es : List HostEvent) (s : State) :
    runEvents (e :: es) s = andThen (runEvent e s) (runEvents es) := rfl

/-- Results that differ in the port only end alike under continuations that do not tell the two ports apart. -/
theorem andThen_withPort_congr {p q : List HostEvent} {f g : State → Result}
    (h : ∀ t : State, f { t with port := p } = g { t with port := q }) (r : Result) :
    andThen (withPort p r) f = andThen (withPort q r) g := by
  cases r with
  | next t => exact h t
  | fault _ => rfl
  | refused _ => rfl

end Sys2Proof.Machine

namespace Sys2Proof.Proofs

open Sys2Proof.Machine

/-- Settles O7: the event at the port is the command word, which runs as the command it decodes to. -/
theorem stepRunsDecodedCommand : Obligations.StepRunsDecodedCommand := by
  intro s cw rest i hport hdec
  calc step s = runWord cw { s with port := rest } := step_cons hport
    _ = exec i { s with port := rest } := runWord_of_ok hdec

/-- Settles O9, by induction on the events. A step and the run of events perform the same first event on states that
differ in the port only, so by `runEvent_port` they stop alike or go on from states that differ in the port only. -/
theorem stepsRunThePort : Obligations.StepsRunThePort := by
  intro evs rest s hport
  induction evs generalizing s with
  | nil =>
    have hrest : rest = s.port := hport.symm
    subst hrest
    rfl
  | cons e evs ih =>
    have hstep : step s = runEvent e { s with port := evs ++ rest } := step_cons hport
    calc coreRun (evs.length + 1) s
      _ = andThen (step s) (coreRun evs.length) := coreRun_succ evs.length s
      _ = andThen (withPort (evs ++ rest) (runEvent e s)) (coreRun evs.length) := by
        rw [hstep, runEvent_port e s (evs ++ rest)]
      _ = andThen (withPort rest (runEvent e s)) (runEvents evs) :=
        andThen_withPort_congr (fun t => ih { t with port := evs ++ rest } rfl) _
      _ = runEvents (e :: evs) { s with port := rest } := by rw [runEvents_cons, runEvent_port e s rest]

end Sys2Proof.Proofs
end

section
/-! What a command can do, whatever the command: the inversion and the case rules that the proofs of 10_state.md share. -/

namespace Sys2Proof.Machine

/-- Every command is the phase check of R15 around a body of its own. -/
theorem exec_eq_inPhase (i : Instr) (s : State) : ∃ body, exec i s = inPhase (acceptedIn i) s body := by
  cases i <;> exact ⟨_, rfl⟩

theorem acceptedIn_ne_halt (i : Instr) : acceptedIn i ≠ .halt := by
  cases i <;> nofun

/-- In the phase that accepts a command, the command is its body. -/
theorem exec_of_phase {i : Instr} {s : State} {body : Result} (hp : s.phase = acceptedIn i)
    (he : exec i s = inPhase (acceptedIn i) s body) : exec i s = body :=
  he.trans (inPhase_of_eq hp (acceptedIn_ne_halt i))

/-- `Completes s i t`: in the phase that accepts it, command `i` completes without a fault and takes `s` to `t`. -/
inductive Completes (s : State) : Instr → State → Prop
  | qred3 (b : Byte) : Completes s (.qred3 b) (s.setRes ((reduce3 b).setWidth 16))
  | qred2 (b : Byte) : Completes s (.qred2 b) (s.setRes ((reduce2 b).setWidth 16))
  | qnear (r g b x : Byte) (hcount : s.count ≠ 0#9) (hx : nearest s r g b = some x) :
      Completes s (.qnear r g b) (s.setRes (x.setWidth 16))
  | pdef : Completes s .pdef { s with pal := PalRam.fill defaultColour, count := 256#9, trans := 0xE3#8 }
  | pldnip : Completes s .pldnip
      { s with
        count := 0, trans := 0xE3#8, decl := 0, lds := .tag0, tagOk := false, ldExt := false, ldp := 0
        nipFlags := 0, phase := .nipLoad }
  | dinTag0 (b : Byte) (hlds : s.lds = .tag0) :
      Completes s (.din b) { s with tagOk := b == 0x4E#8, lds := .tag1 }
  | dinTag1 (b : Byte) (hlds : s.lds = .tag1) :
      Completes s (.din b) { s with tagOk := s.tagOk && b == 0x49#8, lds := .tag2 }
  | dinTag2 (b : Byte) (hlds : s.lds = .tag2) :
      Completes s (.din b) { s with tagOk := s.tagOk && b == 0x50#8, lds := .tag3 }
  | dinTag3 (b : Byte) (hlds : s.lds = .tag3) (hok : (s.tagOk && b == 0x30#8) = true) :
      Completes s (.din b) { s with lds := .count }
  | dinWrongTag (b : Byte) (hlds : s.lds = .tag3) (hbad : (s.tagOk && b == 0x30#8) = false) :
      Completes s (.din b) { s with tagOk := false, lds := .tag0, phase := .idle }
  | dinCount (b : Byte) (hlds : s.lds = .count) :
      Completes s (.din b) { s with decl := countOfByte b, lds := .flags }
  | dinFlags (b : Byte) (hlds : s.lds = .flags) :
      Completes s (.din b) { s with nipFlags := b, ldExt := b.getLsbD 0, lds := .packed }
  | dinPacked (b : Byte) (hlds : s.lds = .packed) (hext : s.ldExt = true) :
      Completes s (.din b) { s with ldp := b, lds := .extension }
  | dinColour (b : Byte) (c : Colour) (hcount : s.count.toNat < 256)
      (hlds : s.lds = .packed ∧ s.ldExt = false ∧ c = unpack8 b ∨ s.lds = .extension ∧ c = unpack9 s.ldp b) :
      Completes s (.din b) (stored c s)
  | dinTrailer (b : Byte) (hlds : s.lds = .trailer) :
      Completes s (.din b) { s with trans := b, lds := .tag0, phase := .idle }
  | pbegin (n : BitVec 16) (hn : n.toNat ≤ 256) : Completes s (.pbegin n)
      { s with count := 0, trans := 0xE3#8, decl := n.setWidth 9, phase := .textImport }
  | padd (r g b : Byte) (hdecl : s.count ≠ s.decl) (hcount : s.count.toNat < 256) : Completes s (.padd r g b)
      { s with pal := s.pal.write s.count.toNat (snapColour r g b), count := s.count + 1#9 }
  | pend : Completes s .pend { s with count := if s.count = s.decl then s.count else 0#9, phase := .idle }
  | pstnip (x : Bool) (cs : List Colour) (hcount : s.count ≠ 0#9) (hcs : paletteColours s = some cs) :
      Completes s (.pstnip x) (s.emit (nipEncode x s.count cs s.trans))
  | pget (k : Byte) (c : Colour) (hk : k.toNat < s.count.toNat) (hc : s.pal.read k.toNat = some c) :
      Completes s (.pget k) (s.setRes (colourWord c))
  | tset (v : Byte) : Completes s (.tset v) { s with trans := v }
  | ibegin8 (w h : BitVec 16) (hcount : s.count ≠ 0#9) : Completes s (.ibegin8 w h) (openImage false w h s)
  | ibegin4 (w h : BitVec 16) (hcount : s.count ≠ 0#9) (hcap : s.count.toNat ≤ 16) (hw : w.getLsbD 0 = false) :
      Completes s (.ibegin4 w h) (openImage true w h s)
  | ipixByte (p : Sample) (idx : Byte) (hidx : pixelIndex s p = some idx) (hmode : s.mode4 = false) :
      Completes s (.ipix p) (s.emit [idx]).advance
  | ipixHigh (p : Sample) (idx : Byte) (hidx : pixelIndex s p = some idx) (hmode : s.mode4 = true)
      (hcap : idx.toNat ≤ 15) (hx : s.x.getLsbD 0 = false) :
      Completes s (.ipix p) (State.advance { s with nib := lowNibble idx })
  | ipixLow (p : Sample) (idx : Byte) (hidx : pixelIndex s p = some idx) (hmode : s.mode4 = true)
      (hcap : idx.toNat ≤ 15) (hx : s.x.getLsbD 0 = true) :
      Completes s (.ipix p) (s.emit [packNibbles s.nib (lowNibble idx)]).advance

/-- What a command of phase `p` leaves: the state as it was in `HALT`; a fault, which is never taken in `HALT`; or, in
phase `p`, what `own` says. -/
def Outcomes (p : Phase) (s t : State) (own : Prop) : Prop :=
  (s.phase = .halt ∧ t = s) ∨ (s.phase ≠ .halt ∧ ∃ k, t = s.raise k) ∨ (s.phase = p ∧ own)

/-- The faults of a command's own tests join the `SequenceError` of the phase check. -/
theorem Ran.outcomes {p : Phase} {s t : State} {own done : Prop} (h : Ran p s t own) (hp : p ≠ .halt)
    (hown : own → (∃ k, t = s.raise k) ∨ done) : Outcomes p s t done := by
  rcases h with h | ⟨hh, -, ht⟩ | ⟨hs, ho⟩
  · exact .inl h
  · exact .inr (.inl ⟨hh, _, ht⟩)
  · rcases hown ho with hf | hd
    · exact .inr (.inl ⟨hs ▸ hp, hf⟩)
    · exact .inr (.inr ⟨hs, hd⟩)

theorem loadByte_completes {b : Byte} {s t : State} (h : loadByte b s = .next t) : Completes s (.din b) t := by
  rcases loadByte_next h with ⟨hl, rfl⟩ | ⟨hl, rfl⟩ | ⟨hl, rfl⟩ | ⟨hl, hok, rfl⟩ | ⟨hl, hbad, rfl⟩ | ⟨hl, rfl⟩ |
    ⟨hl, rfl⟩ | ⟨hl, hx, rfl⟩ | ⟨hl, hx, hc, rfl⟩ | ⟨hl, hc, rfl⟩ | ⟨hl, rfl⟩
  · exact .dinTag0 b hl
  · exact .dinTag1 b hl
  · exact .dinTag2 b hl
  · exact .dinTag3 b hl hok
  · exact .dinWrongTag b hl hbad
  · exact .dinCount b hl
  · exact .dinFlags b hl
  · exact .dinPacked b hl hx
  · exact .dinColour b _ hc (.inl ⟨hl, hx, rfl⟩)
  · exact .dinColour b _ hc (.inr ⟨hl, rfl⟩)
  · exact .dinTrailer b hl

theorem codeIndex_completes {p : Sample} {idx : Byte} {s : State} (h : pixelIndex s p = some idx) :
    (∃ k, codeIndex idx s = s.raise k) ∨ Completes s (.ipix p) (codeIndex idx s) := by
  rcases codeIndex_cases idx s with ⟨hm, he⟩ | ⟨-, -, he⟩ | ⟨hm, hi, hx, he⟩ | ⟨hm, hi, hx, he⟩
  · exact .inr (he ▸ .ipixByte p idx h hm)
  · exact .inl ⟨_, he⟩
  · exact .inr (he ▸ .ipixHigh p idx h hm hi hx)
  · exact .inr (he ▸ .ipixLow p idx h hm hi hx)

/-- All that a command can do: be ignored in `HALT`, fault, or complete in the phase that accepts it. -/
theorem exec_next {i : Instr} {s t : State} (h : exec i s = .next t) :
    Outcomes (acceptedIn i) s t (Completes s i t) := by
  cases i with
  | qred3 b => exact (execQred3_next h).outcomes nofun fun ht => .inr (ht ▸ .qred3 b)
  | qred2 b => exact (execQred2_next h).outcomes nofun fun ht => .inr (ht ▸ .qred2 b)
  | qnear r g b =>
    refine (execQnear_next h).outcomes nofun ?_
    rintro (⟨-, rfl⟩ | ⟨hc, x, hx, rfl⟩)
    exacts [.inl ⟨_, rfl⟩, .inr (.qnear r g b x hc hx)]
  | pdef => exact (execPdef_next h).outcomes nofun fun ht => .inr (ht ▸ .pdef)
  | pldnip => exact (execPldnip_next h).outcomes nofun fun ht => .inr (ht ▸ .pldnip)
  | din b => exact (execDin_next h).outcomes nofun fun hb => .inr (loadByte_completes hb)
  | pbegin n =>
    refine (execPbegin_next h).outcomes nofun ?_
    rintro (⟨-, rfl⟩ | ⟨hn, rfl⟩)
    exacts [.inl ⟨_, rfl⟩, .inr (.pbegin n hn)]
  | padd r g b =>
    refine (execPadd_next h).outcomes nofun ?_
    rintro (⟨-, rfl⟩ | ⟨hd, hc, rfl⟩)
    exacts [.inl ⟨_, rfl⟩, .inr (.padd r g b hd hc)]
  | pend => exact (execPend_next h).outcomes nofun fun ht => .inr (ht ▸ .pend)
  | pstnip x =>
    refine (execPstnip_next h).outcomes nofun ?_
    rintro (⟨-, rfl⟩ | ⟨hc, cs, hcs, rfl⟩)
    exacts [.inl ⟨_, rfl⟩, .inr (.pstnip x cs hc hcs)]
  | pget k =>
    refine (execPget_next h).outcomes nofun ?_
    rintro (⟨-, rfl⟩ | ⟨hk, c, hc, rfl⟩)
    exacts [.inl ⟨_, rfl⟩, .inr (.pget k c hk hc)]
  | tset v => exact (execTset_next h).outcomes nofun fun ht => .inr (ht ▸ .tset v)
  | ibegin8 w h' =>
    refine (execIbegin8_next h).outcomes nofun ?_
    rintro (⟨-, rfl⟩ | ⟨hc, rfl⟩)
    exacts [.inl ⟨_, rfl⟩, .inr (.ibegin8 w h' hc)]
  | ibegin4 w h' =>
    refine (execIbegin4_next h).outcomes nofun ?_
    rintro (⟨-, rfl⟩ | ⟨-, -, rfl⟩ | ⟨hc, hcap, hw, rfl⟩)
    exacts [.inl ⟨_, rfl⟩, .inl ⟨_, rfl⟩, .inr (.ibegin4 w h' hc hcap hw)]
  | ipix p =>
    refine (execIpix_next h).outcomes nofun ?_
    rintro ⟨idx, hidx, rfl⟩
    exact codeIndex_completes hidx

end Sys2Proof.Machine
end

section
/-! The invariant of 10_state.md R30: a constructor for each phase, and that every step keeps it. -/

namespace Sys2Proof.Machine

/-- The clauses of the invariant that look at neither `PHASE` nor `LDS`. -/
structure State.Sound (s : State) : Prop where
  count_le : s.count.toNat ≤ 256
  decl_le : s.decl.toNat ≤ 256
  written : s.PaletteWritten
  flags_ext : s.nipFlags.getLsbD 0 = s.ldExt
  pal_wf : s.pal.wf = true

theorem State.Inv.sound {s : State} (h : s.Inv) : s.Sound :=
  { h.r30 with pal_wf := h.pal_wf }

theorem State.Inv.err_none {s : State} (h : s.Inv) (hp : s.phase ≠ .halt) : s.err = none := by
  by_contra herr
  exact hp (h.r30.err_halt.mp herr)

/-- What `LDS` says of `COUNT` and `DECL` in a load: before the colours no colour has arrived, between them one is still
awaited, at the trailing byte all have arrived (R30 (d)). -/
@[simp] def LoadPos.Progress (count decl : BitVec 9) : LoadPos → Prop
  | .tag0 | .tag1 | .tag2 | .tag3 | .count => count = 0#9
  | .flags => count = 0#9 ∧ 1 ≤ decl.toNat
  | .packed | .extension => count.toNat < decl.toNat
  | .trailer => count = decl ∧ 1 ≤ decl.toNat

theorem State.Inv.progress {s : State} (h : s.Inv) (hp : s.phase = .nipLoad) : s.lds.Progress s.count s.decl := by
  have hopen := h.r30.load_open hp
  have hfull := h.r30.load_full
  have hheader := h.load_header hp
  have hcounted := h.load_counted hp
  cases hl : s.lds <;> simp_all

/-- The invariant in a load. -/
theorem State.Sound.inv_of_load {s : State} (h : s.Sound) (hp : s.phase = .nipLoad) (herr : s.err = none)
    (hlds : s.lds.Progress s.count s.decl) : s.Inv where
  r30 :=
    { h with
      err_halt := by simp [hp, herr]
      lds_zero := by simp [hp]
      load_open := by
        rintro - (hl | hl) <;> simp only [hl, LoadPos.Progress] at hlds <;> omega
      load_full := fun hl => by simpa [hl] using hlds
      import_le := by simp [hp]
      image_open := by simp [hp]
      image_nibbles := by simp [hp] }
  load_header := by
    rintro - (hl | hl | hl | hl | hl | hl) <;> simp_all
  load_counted _ hl := by simp_all
  pal_wf := h.pal_wf

/-- The invariant where no load is open and no fault has been taken. -/
theorem State.Sound.inv_of_not_load {s : State} (h : s.Sound) (hhalt : s.phase ≠ .halt) (hload : s.phase ≠ .nipLoad)
    (herr : s.err = none) (hlds : s.lds = .tag0)
    (himport : s.phase = .textImport → s.count.toNat ≤ s.decl.toNat)
    (himage : s.phase = .image →
      1 ≤ s.count.toNat ∧ 1 ≤ s.w.toNat ∧ 1 ≤ s.h.toNat ∧ s.x.toNat < s.w.toNat ∧ s.y.toNat < s.h.toNat)
    (hnibbles : s.phase = .image → s.mode4 = true → s.count.toNat ≤ 16 ∧ s.w.getLsbD 0 = false) : s.Inv where
  r30 :=
    { h with
      err_halt := by simp [hhalt, herr]
      lds_zero := fun _ => hlds
      load_open := fun hl => absurd hl hload
      load_full := by simp [hlds]
      import_le := himport
      image_open := himage
      image_nibbles := hnibbles }
  load_header := fun hl => absurd hl hload
  load_counted := fun hl => absurd hl hload
  pal_wf := h.pal_wf

theorem State.Sound.inv_of_idle {s : State} (h : s.Sound) (hp : s.phase = .idle) (herr : s.err = none)
    (hlds : s.lds = .tag0) : s.Inv :=
  h.inv_of_not_load (by simp [hp]) (by simp [hp]) herr hlds (by simp [hp]) (by simp [hp]) (by simp [hp])

theorem State.Sound.inv_of_import {s : State} (h : s.Sound) (hp : s.phase = .textImport) (herr : s.err = none)
    (hlds : s.lds = .tag0) (hle : s.count.toNat ≤ s.decl.toNat) : s.Inv :=
  h.inv_of_not_load (by simp [hp]) (by simp [hp]) herr hlds (fun _ => hle) (by simp [hp]) (by simp [hp])

theorem State.Sound.inv_of_image {s : State} (h : s.Sound) (hp : s.phase = .image) (herr : s.err = none)
    (hlds : s.lds = .tag0)
    (himage : 1 ≤ s.count.toNat ∧ 1 ≤ s.w.toNat ∧ 1 ≤ s.h.toNat ∧ s.x.toNat < s.w.toNat ∧ s.y.toNat < s.h.toNat)
    (hnibbles : s.mode4 = true → s.count.toNat ≤ 16 ∧ s.w.getLsbD 0 = false) : s.Inv :=
  h.inv_of_not_load (by simp [hp]) (by simp [hp]) herr hlds (by simp [hp]) (fun _ => himage) fun _ => hnibbles

/-! ## Updates that keep it -/

theorem State.Inv.setPort {s : State} (h : s.Inv) (p : List HostEvent) : State.Inv { s with port := p } :=
  { h with r30 := { h.r30 with } }

theorem State.Inv.setNib {s : State} (h : s.Inv) (n : BitVec 4) : State.Inv { s with nib := n } :=
  { h with r30 := { h.r30 with } }

theorem State.Inv.setRes {s : State} (h : s.Inv) (v : BitVec 16) : (s.setRes v).Inv :=
  { h with r30 := { h.r30 with } }

theorem State.Inv.emit {s : State} (h : s.Inv) (bs : List Byte) : (s.emit bs).Inv :=
  { h with r30 := { h.r30 with } }

theorem State.Inv.setTrans {s : State} (h : s.Inv) (v : Byte) : State.Inv { s with trans := v } :=
  { h with r30 := { h.r30 with } }

/-- A fault keeps it: `HALT` leaves only the clauses that hold in every phase. -/
theorem State.Inv.raise {s : State} (h : s.Inv) (k : ErrKind) : (s.raise k).Inv where
  r30 :=
    { h.sound with
      err_halt := by simp
      lds_zero := by simp
      load_open := by simp
      load_full := h.r30.load_full
      import_le := by simp
      image_open := by simp
      image_nibbles := by simp }
  load_header := by simp
  load_counted := by simp
  pal_wf := h.pal_wf

/-- The first entries of a written palette are one. -/
theorem State.Sound.setCount {s : State} (h : s.Sound) {n : BitVec 9} (hn : n.toNat ≤ s.count.toNat) :
    State.Sound { s with count := n } :=
  { h with count_le := hn.trans h.count_le, written := fun i hi => h.written i (Nat.lt_of_lt_of_le hi hn) }

theorem count_succ_toNat {n : BitVec 9} (h : n.toNat < 256) : (n + 1#9).toNat = n.toNat + 1 := by
  bv_omega

/-- A colour appended to a written palette below the capacity. -/
theorem State.Sound.append {s : State} (h : s.Sound) (c : Colour) (hc : s.count.toNat < 256) :
    State.Sound { s with pal := s.pal.write s.count.toNat c, count := s.count + 1#9 } where
  count_le := by simp only [count_succ_toNat hc]; omega
  decl_le := h.decl_le
  written := by
    intro i (hi : i < (s.count + 1#9).toNat)
    rw [count_succ_toNat hc] at hi
    simp only [PalRam.read_write]
    split
    · exact ⟨c, rfl⟩
    · exact h.written i (by omega)
  flags_ext := h.flags_ext
  pal_wf := PalRam.wf_write s.pal _ c h.pal_wf hc

theorem State.Sound.assertReset (s : State) : s.assertReset.Sound where
  count_le := by simp
  decl_le := by simp
  written i hi := absurd hi (Nat.not_lt_zero i)
  flags_ext := by simp
  pal_wf := rfl

theorem State.Inv.assertReset (s : State) : s.assertReset.Inv :=
  (State.Sound.assertReset s).inv_of_idle rfl rfl rfl

/-! ## The commands that keep it by more than leaving its registers alone -/

theorem countOfByte_toNat (b : Byte) : 1 ≤ (countOfByte b).toNat ∧ (countOfByte b).toNat ≤ 256 := by
  unfold countOfByte
  split
  · decide
  · have hb : b.toNat ≠ 0 := fun h0 => ‹¬ b = 0#8› (BitVec.eq_of_toNat_eq h0)
    have := b.isLt
    simp only [BitVec.toNat_setWidth]
    omega

theorem pbegin_decl_toNat {n : BitVec 16} (hn : n.toNat ≤ 256) : (n.setWidth 9).toNat = n.toNat := by
  simp only [BitVec.toNat_setWidth]; omega

/-- A colour that the loader stores is followed by the next colour, or by the trailing byte when it was the last. -/
theorem afterColour_progress {s : State} (hlt : s.count.toNat < s.decl.toNat) (hc : s.count.toNat < 256) :
    (afterColour s).Progress (s.count + 1#9) s.decl := by
  have hsucc := count_succ_toNat hc
  unfold afterColour
  split
  · exact ⟨BitVec.eq_of_toNat_eq (by omega), by omega⟩
  · simp only [LoadPos.Progress]; omega

theorem stored_inv {s : State} (h : s.Inv) (hp : s.phase = .nipLoad) (c : Colour) (hc : s.count.toNat < 256)
    (hlt : s.count.toNat < s.decl.toNat) : (stored c s).Inv :=
  have hs : (stored c s).Sound := { h.sound.append c hc with }
  hs.inv_of_load hp (h.err_none (by simp [hp])) (afterColour_progress hlt hc)

theorem openImage_inv {s : State} (h : s.Inv) (hp : s.phase = .idle) (mode4 : Bool) (w h' : BitVec 16)
    (hc : s.count ≠ 0#9) (hm : mode4 = true → s.count.toNat ≤ 16 ∧ w.getLsbD 0 = false) :
    (openImage mode4 w h' s).Inv := by
  have hs : (openImage mode4 w h' s).Sound := { h.sound with }
  have herr := h.err_none (by simp [hp])
  have hlds := h.r30.lds_zero (.inl hp)
  by_cases hd : w ≠ 0#16 ∧ h' ≠ 0#16
  · refine hs.inv_of_image (if_pos hd) herr hlds ?_ hm
    have hn : 1 ≤ s.count.toNat := by bv_omega
    have hw : 1 ≤ w.toNat := by bv_omega
    have hh : 1 ≤ h'.toNat := by bv_omega
    exact ⟨hn, hw, hh, hw, hh⟩
  · exact hs.inv_of_idle (if_neg hd) herr hlds

/-- The three moves of R145: along the row, to the next row, past the last pixel. -/
theorem State.advance_cases (s : State) :
    (s.x.toNat + 1 < s.w.toNat ∧ s.advance = { s with x := s.x + 1#16 }) ∨
    (s.w.toNat ≤ s.x.toNat + 1 ∧ s.y.toNat + 1 ≠ s.h.toNat ∧ s.advance = { s with x := 0, y := s.y + 1#16 }) ∨
    (s.w.toNat ≤ s.x.toNat + 1 ∧ s.y.toNat + 1 = s.h.toNat ∧
      s.advance = { s with x := 0, y := s.y + 1#16, phase := .idle }) := by
  unfold State.advance
  split
  · exact .inl ⟨‹_›, rfl⟩
  · by_cases hy : s.y.toNat + 1 = s.h.toNat
    · exact .inr (.inr ⟨Nat.not_lt.mp ‹_›, hy, by simp [hy]⟩)
    · exact .inr (.inl ⟨Nat.not_lt.mp ‹_›, hy, by simp [hy]⟩)

theorem succ_toNat_lt {a b : BitVec 16} (h : a.toNat + 1 < b.toNat) : (a + 1#16).toNat < b.toNat := by
  bv_omega

/-- The position stays inside the image, and the last pixel closes it. -/
theorem State.Inv.advance {s : State} (h : s.Inv) (hp : s.phase = .image) : s.advance.Inv := by
  obtain ⟨hc, hw, hh, hx, hy⟩ := h.r30.image_open hp
  have hnibbles := h.r30.image_nibbles hp
  have herr := h.err_none (by simp [hp])
  have hlds := h.r30.lds_zero (.inr (.inr hp))
  rcases s.advance_cases with ⟨hrow, ht⟩ | ⟨-, hlast, ht⟩ | ⟨-, -, ht⟩ <;> rw [ht]
  · have hs : State.Sound { s with x := s.x + 1#16 } := { h.sound with }
    exact hs.inv_of_image hp herr hlds ⟨hc, hw, hh, succ_toNat_lt hrow, hy⟩ hnibbles
  · have hs : State.Sound { s with x := 0, y := s.y + 1#16 } := { h.sound with }
    have hcol : s.y.toNat + 1 < s.h.toNat := by omega
    exact hs.inv_of_image hp herr hlds ⟨hc, hw, hh, hw, succ_toNat_lt hcol⟩ hnibbles
  · have hs : State.Sound { s with x := 0, y := s.y + 1#16, phase := .idle } := { h.sound with }
    exact hs.inv_of_idle rfl herr hlds

/-- A command that completes keeps the invariant. -/
theorem Completes.inv {i : Instr} {s t : State} (hc : Completes s i t) (hp : s.phase = acceptedIn i) (h : s.Inv) :
    t.Inv := by
  have hs := h.sound
  have herr : s.err = none := h.err_none (hp ▸ acceptedIn_ne_halt i)
  cases hc with
  | qred3 | qred2 | qnear | pget => exact h.setRes _
  | pstnip => exact h.emit _
  | tset => exact h.setTrans _
  | pdef =>
    have hfull : State.Sound { s with pal := PalRam.fill defaultColour, count := 256#9, trans := 0xE3#8 } :=
      { hs with
        count_le := le_rfl
        written := fun i (hi : i < 256) => ⟨_, (PalRam.read_fill _ i).trans (if_pos hi)⟩
        pal_wf := PalRam.wf_fill _ }
    exact hfull.inv_of_idle hp herr (h.r30.lds_zero (.inl hp))
  | pldnip =>
    exact State.Sound.inv_of_load
      { hs.setCount (n := 0) (Nat.zero_le _) with decl_le := Nat.zero_le _, flags_ext := by simp } rfl herr rfl
  | dinTag0 b hlds | dinTag1 b hlds | dinTag2 b hlds | dinTag3 b hlds =>
    have hprog : s.count = 0#9 := by simpa [hlds] using h.progress hp
    exact State.Sound.inv_of_load { hs with } hp herr hprog
  | dinWrongTag | dinTrailer => exact State.Sound.inv_of_idle { hs with } rfl herr rfl
  | dinCount b hlds =>
    have hprog : s.count = 0#9 := by simpa [hlds] using h.progress hp
    obtain ⟨hpos, hle⟩ := countOfByte_toNat b
    exact State.Sound.inv_of_load { hs with decl_le := hle } hp herr ⟨hprog, hpos⟩
  | dinFlags b hlds =>
    have hprog : s.count = 0#9 ∧ 1 ≤ s.decl.toNat := by simpa [hlds] using h.progress hp
    have hlt : s.count.toNat < s.decl.toNat := by rw [hprog.1]; exact hprog.2
    exact State.Sound.inv_of_load { hs with flags_ext := rfl } hp herr hlt
  | dinPacked b hlds =>
    have hprog : s.count.toNat < s.decl.toNat := by simpa [hlds] using h.progress hp
    exact State.Sound.inv_of_load { hs with } hp herr hprog
  | dinColour b c hcount hlds =>
    have hprog : s.count.toNat < s.decl.toNat := by
      have := h.progress hp
      rcases hlds with ⟨hl, -, -⟩ | ⟨hl, -⟩ <;> simpa [hl] using this
    exact stored_inv h hp c hcount hprog
  | pbegin n hn =>
    exact State.Sound.inv_of_import
      { hs.setCount (n := 0) (Nat.zero_le _) with decl_le := (pbegin_decl_toNat hn).trans_le hn } rfl herr
      (h.r30.lds_zero (.inl hp)) (Nat.zero_le _)
  | padd r g b hdecl hcount =>
    have hle := h.r30.import_le hp
    have hlt : s.count.toNat < s.decl.toNat := hle.lt_of_ne fun he => hdecl (BitVec.eq_of_toNat_eq he)
    exact (hs.append _ hcount).inv_of_import hp herr (h.r30.lds_zero (.inr (.inl hp)))
      ((count_succ_toNat hcount).trans_le hlt)
  | pend =>
    have hn : (if s.count = s.decl then s.count else 0#9).toNat ≤ s.count.toNat := by
      split <;> simp
    exact State.Sound.inv_of_idle { hs.setCount hn with } rfl herr (h.r30.lds_zero (.inr (.inl hp)))
  | ibegin8 w h' hcount => exact openImage_inv h hp false w h' hcount nofun
  | ibegin4 w h' hcount hcap hw => exact openImage_inv h hp true w h' hcount fun _ => ⟨hcap, hw⟩
  | ipixByte | ipixLow => exact (h.emit _).advance hp
  | ipixHigh => exact (h.setNib _).advance hp

theorem exec_inv {i : Instr} {s t : State} (h : s.Inv) (hr : exec i s = .next t) : t.Inv := by
  rcases exec_next hr with ⟨-, rfl⟩ | ⟨-, k, rfl⟩ | ⟨hp, hc⟩
  · exact h
  · exact h.raise k
  · exact hc.inv hp h

theorem runEvent_inv {e : HostEvent} {s t : State} (h : s.Inv) (hr : runEvent e s = .next t) : t.Inv := by
  cases e with
  | reset => exact next_eq hr ▸ State.Inv.assertReset s
  | command cw =>
    cases hd : decode cw with
    | ok i => exact exec_inv h ((runWord_of_ok hd).symm.trans hr)
    | error r =>
      rcases illegalWord_next ((runWord_of_error hd).symm.trans hr) with ⟨-, rfl⟩ | ⟨-, rfl⟩
      · exact h
      · exact h.raise _

theorem runEvents_inv {es : List HostEvent} {s t : State} (h : s.Inv) (hr : runEvents es s = .next t) : t.Inv := by
  induction es generalizing s with
  | nil => exact next_eq hr ▸ h
  | cons e es ih =>
    cases he : runEvent e s with
    | next u => exact ih (runEvent_inv h he) ((runEvents_cons_next he).symm.trans hr)
    | fault f => simp [runEvents, he] at hr
    | refused q => simp [runEvents, he] at hr

theorem reset_inv : State.reset.Inv := State.Inv.assertReset State.reset

end Sys2Proof.Machine

namespace Sys2Proof.Proofs

open Sys2Proof.Machine

/-- Settles O54: the reset state is the reset input's effect on itself. -/
theorem resetSatisfiesInvariant : Obligations.ResetSatisfiesInvariant := reset_inv

/-- Settles O55: a step waits, or performs one event on the state without the event at the port. -/
theorem stepKeepsInvariant : Obligations.StepKeepsInvariant := by
  intro s t h hr
  cases hport : s.port with
  | nil => exact next_eq ((step_nil hport).symm.trans hr) ▸ h
  | cons e rest => exact runEvent_inv (h.setPort rest) ((step_cons hport).symm.trans hr)

/-- Settles O56: the invariant holds at reset and along every list of events, and R30 is part of it. -/
theorem reachableStatesSatisfyR30 : Obligations.ReachableStatesSatisfyR30 :=
  fun _ _ hr => (runEvents_inv reset_inv hr).r30

end Sys2Proof.Proofs
end

section
/-! Where a command stops (10_state.md R33, 20_memory.md R40): only at a palette entry that holds no value or does not
exist. -/

namespace Sys2Proof.Machine

/-- A next state, or a stop for which `s` lacks an entry: one below `COUNT` that holds no value, or the one at `COUNT`
that an append would store at. -/
inductive NextOrMissing (s : State) : Result → Prop
  | next (t : State) : NextOrMissing s (.next t)
  | unwritten (h : ¬ s.PaletteWritten) : NextOrMissing s (.fault .unwrittenEntry)
  | noEntry (hcount : 256 ≤ s.count.toNat)
      (hopen : s.phase = .textImport ∧ s.count ≠ s.decl ∨
        s.phase = .nipLoad ∧ (s.lds = .packed ∨ s.lds = .extension)) : NextOrMissing s (.fault .noSuchEntry)

theorem NextOrMissing.inPhase {p : Phase} {s : State} {body : Result} (h : s.phase = p → NextOrMissing s body) :
    NextOrMissing s (inPhase p s body) := by
  unfold Machine.inPhase
  split
  · exact .next _
  · split
    · exact h ‹_›
    · exact .next _

theorem NextOrMissing.needPalette {s : State} {body : Result} (h : NextOrMissing s body) :
    NextOrMissing s (needPalette s body) := by
  unfold Machine.needPalette
  split
  · exact .next _
  · exact h

/-- A read that answers when the palette is written. -/
theorem NextOrMissing.reading {α : Type} {s : State} {o : Option α} {f : α → State}
    (h : s.PaletteWritten → ∃ v, o = some v) : NextOrMissing s (reading o fun v => .next (f v)) := by
  cases ho : o with
  | some v => exact .next _
  | none =>
    refine .unwritten fun hw => ?_
    obtain ⟨v, hv⟩ := h hw
    simp [ho] at hv

theorem NextOrMissing.appendColour {s u : State} {c : Colour} (hu : u.count = s.count)
    (hopen : s.phase = .textImport ∧ s.count ≠ s.decl ∨
      s.phase = .nipLoad ∧ (s.lds = .packed ∨ s.lds = .extension)) : NextOrMissing s (appendColour c u) := by
  by_cases hc : u.count.toNat < 256
  · rw [appendColour_of_lt hc]; exact .next _
  · have hge : 256 ≤ u.count.toNat := Nat.not_lt.mp hc
    rw [appendColour_of_ge hge]; exact .noEntry (hu ▸ hge) hopen

theorem paletteColours_exists {s : State} (h : s.PaletteWritten) : ∃ cs, paletteColours s = some cs :=
  PalRam.entriesFrom_exists s.pal 0 s.count.toNat fun k hk => by simpa using h k hk

theorem loadByte_nextOrMissing {b : Byte} {s : State} (hp : s.phase = .nipLoad) : NextOrMissing s (loadByte b s) := by
  unfold loadByte
  split
  case h_4 => split <;> exact .next _
  case h_7 hl =>
    split
    · exact .next _
    · exact .appendColour rfl (.inr ⟨hp, .inl hl⟩)
  case h_8 hl => exact .appendColour rfl (.inr ⟨hp, .inr hl⟩)
  all_goals exact .next _

/-- All the stops there are. -/
theorem exec_nextOrMissing (i : Instr) (s : State) : NextOrMissing s (exec i s) := by
  cases i with
  | qred3 | qred2 | pdef | pldnip | pend | tset => exact .inPhase fun _ => .next _
  | qnear r g b => exact .inPhase fun _ => .needPalette (.reading (nearest_exists s r g b))
  | din b => exact .inPhase loadByte_nextOrMissing
  | pbegin n =>
    refine .inPhase fun _ => ?_
    split <;> exact .next _
  | padd r g b =>
    refine .inPhase fun hp => ?_
    split
    · exact .next _
    · exact .appendColour rfl (.inl ⟨hp, ‹_›⟩)
  | pstnip x => exact .inPhase fun _ => .needPalette (.reading paletteColours_exists)
  | pget k =>
    refine .inPhase fun _ => ?_
    split
    · exact .next _
    · exact .reading fun hw => hw _ (Nat.not_le.mp ‹_›)
  | ibegin8 => exact .inPhase fun _ => .needPalette (.next _)
  | ibegin4 w h =>
    refine .inPhase fun _ => .needPalette ?_
    split
    · exact .next _
    · split <;> exact .next _
  | ipix p => exact .inPhase fun _ => .reading fun hw => pixelIndex_exists s p (.inl hw)

theorem runEvent_nextOrMissing (e : HostEvent) (s : State) : NextOrMissing s (runEvent e s) := by
  cases e with
  | reset => exact .next _
  | command cw =>
    cases hd : decode cw with
    | ok i =>
      rw [runEvent, runWord_of_ok hd]
      exact exec_nextOrMissing i s
    | error r =>
      rw [runEvent, runWord_of_error hd]
      unfold illegalWord
      split <;> exact .next _

/-- With the invariant no entry is missing: the palette is written, and an append is below `DECL` (R30 (a), (d), (e)). -/
theorem NextOrMissing.exists_next {s : State} {r : Result} (h : NextOrMissing s r) (hi : s.Inv) : ∃ t, r = .next t := by
  cases h with
  | next t => exact ⟨t, rfl⟩
  | unwritten hw => exact absurd hi.r30.written hw
  | noEntry hcount hopen =>
    have hdecl := hi.r30.decl_le
    have hlt : s.count.toNat < s.decl.toNat := by
      rcases hopen with ⟨hp, hne⟩ | ⟨hp, hl⟩
      · exact (hi.r30.import_le hp).lt_of_ne fun he => hne (BitVec.eq_of_toNat_eq he)
      · exact (hi.r30.load_open hp hl).2
    omega

theorem NextOrMissing.ne_refused {s : State} {r : Result} (h : NextOrMissing s r) (q : Refusal) : r ≠ .refused q := by
  cases h <;> nofun

theorem nearest_none {s : State} (r g b : Byte) {i : Nat} (hi : i < s.count.toNat) (ht : i ≠ s.trans.toNat)
    (h : s.pal.read i = none) : nearest s r g b = none := by
  simp [nearest, searchLoop_none s.pal s.trans r g b _ Config.bestInit 0 i (List.mem_range.mpr hi) ht h]

theorem count_ne_zero_of_lt {s : State} {i : Nat} (h : i < s.count.toNat) : s.count ≠ 0#9 := by
  intro h0
  simp [h0] at h

/-- The byte that completes a colour is an append. -/
theorem loadByte_of_colour {s : State} (b : Byte) (h : s.lds = .packed ∧ s.ldExt = false ∨ s.lds = .extension) :
    ∃ c, loadByte b s = appendColour c { s with lds := afterColour s } := by
  rcases h with ⟨hl, hx⟩ | hl
  · exact ⟨unpack8 b, by simp [loadByte, hl, hx]⟩
  · exact ⟨unpack9 s.ldp b, by simp [loadByte, hl]⟩

end Sys2Proof.Machine

namespace Sys2Proof.Proofs

open Sys2Proof.Machine

/-- Settles O57: a step performs at most one event, which meets no missing entry. -/
theorem invariantStatesNeverStop : Obligations.InvariantStatesNeverStop := by
  intro s h
  cases hport : s.port with
  | nil => exact ⟨s, step_nil hport⟩
  | cons e rest =>
    rw [step_cons hport]
    exact (runEvent_nextOrMissing e _).exists_next (h.setPort rest)

/-- Settles O12: every command is the phase check around its body. -/
theorem commandOutsideItsPhaseRaisesSequenceError : Obligations.CommandOutsideItsPhaseRaisesSequenceError := by
  intro i s hhalt hp
  obtain ⟨body, hb⟩ := exec_eq_inPhase i s
  exact hb.trans (inPhase_of_ne hhalt hp)

/-- Settles O58: each command is followed to the entry it misses. -/
theorem missingEntriesStopCommands : Obligations.MissingEntriesStopCommands := by
  refine ⟨?pget, ?pstnip, ?qnear, ?ipix, ?padd, ?din, ?refused⟩
  case pget =>
    intro s k hp hk hnone
    rw [exec_of_phase (i := .pget k) hp rfl, if_neg (Nat.not_le.mpr hk), hnone, reading_none]
  case pstnip =>
    intro s x i hp hi hnone
    have hcs : paletteColours s = none :=
      PalRam.entriesFrom_none s.pal 0 s.count.toNat i hi (by simpa using hnone)
    rw [exec_of_phase (i := .pstnip x) hp rfl, needPalette_of_ne (count_ne_zero_of_lt hi), hcs, reading_none]
  case qnear =>
    intro s r g b i hp hi ht hnone
    rw [exec_of_phase (i := .qnear r g b) hp rfl, needPalette_of_ne (count_ne_zero_of_lt hi),
      nearest_none r g b hi ht hnone, reading_none]
  case ipix =>
    intro s p i hp hopaque hi ht hnone
    have hidx : pixelIndex s p = none := by
      simp [pixelIndex, sampleA, hopaque, nearest_none _ _ _ hi ht hnone]
    rw [exec_of_phase (i := .ipix p) hp rfl, hidx, reading_none]
  case padd =>
    intro s r g b hp hdecl hcount
    rw [exec_of_phase (i := .padd r g b) hp rfl, if_neg hdecl, appendColour_of_ge hcount]
  case din =>
    intro s b hp hcount hlds
    obtain ⟨c, hc⟩ := loadByte_of_colour b hlds
    rw [exec_of_phase (i := .din b) hp rfl, hc]
    exact appendColour_of_ge hcount
  case refused =>
    intro s q
    cases hport : s.port with
    | nil => simp [step_nil hport]
    | cons e rest =>
      rw [step_cons hport]
      exact (runEvent_nextOrMissing e _).ne_refused q

end Sys2Proof.Proofs
end

section
/-! Which registers a command writes (10_state.md R12 to R26) and how `PHASE` moves (R15). -/

namespace Sys2Proof.Machine

/-- An image that is opened has pixels. -/
theorem openImage_opens {mode4 : Bool} {w h : BitVec 16} {s : State} (hne : (openImage mode4 w h s).phase ≠ .idle) :
    (openImage mode4 w h s).phase = .image ∧ w ≠ 0#16 ∧ h ≠ 0#16 := by
  rw [openImage_phase] at hne ⊢
  split at hne
  · exact ⟨if_pos ‹_›, ‹_›⟩
  · exact absurd rfl hne

/-- Only the move past the last pixel writes `PHASE`. -/
theorem State.advance_closes {s : State} (hne : s.advance.phase ≠ s.phase) :
    s.advance.phase = .idle ∧ s.w.toNat ≤ s.x.toNat + 1 ∧ s.y.toNat + 1 = s.h.toNat := by
  rcases s.advance_cases with ⟨-, ht⟩ | ⟨-, -, ht⟩ | ⟨hrow, hlast, ht⟩ <;> rw [ht] at hne ⊢
  · exact absurd rfl hne
  · exact absurd rfl hne
  · exact ⟨rfl, hrow, hlast⟩

end Sys2Proof.Machine

namespace Sys2Proof.Proofs

open Sys2Proof.Machine

/-- Settles O16: a fault is the last of the transitions, and of the commands that complete only those listed write
`PHASE`. -/
theorem phaseTransitions : Obligations.PhaseTransitions := by
  intro i s t hr hne
  rcases exec_next hr with ⟨-, rfl⟩ | ⟨hhalt, k, rfl⟩ | ⟨hp, hc⟩
  · exact absurd rfl hne
  · exact .inr (.inr (.inr (.inr (.inr (.inr ⟨hhalt, rfl, Option.some_ne_none k⟩)))))
  · cases hc with
    | pldnip => exact .inl ⟨hp, rfl, rfl⟩
    | dinWrongTag b hlds hbad => exact .inr (.inl ⟨hp, rfl, b, rfl, .inr ⟨hlds, by simpa using hbad⟩⟩)
    | dinTrailer b hlds => exact .inr (.inl ⟨hp, rfl, b, rfl, .inl hlds⟩)
    | pbegin n => exact .inr (.inr (.inl ⟨hp, rfl, n, rfl⟩))
    | pend => exact .inr (.inr (.inr (.inl ⟨hp, rfl, rfl⟩)))
    | ibegin8 w h =>
      obtain ⟨himage, hw, hh⟩ := openImage_opens (hp ▸ hne)
      exact .inr (.inr (.inr (.inr (.inl ⟨hp, himage, w, h, hw, hh, .inl rfl⟩))))
    | ibegin4 w h =>
      obtain ⟨himage, hw, hh⟩ := openImage_opens (hp ▸ hne)
      exact .inr (.inr (.inr (.inr (.inl ⟨hp, himage, w, h, hw, hh, .inr rfl⟩))))
    | ipixByte p | ipixHigh p | ipixLow p =>
      obtain ⟨hidle, hrow, hlast⟩ := State.advance_closes hne
      exact .inr (.inr (.inr (.inr (.inr (.inl ⟨hp, hidle, hrow, hlast, p, rfl⟩)))))
    | _ => exact absurd rfl hne

/-- Settles O17: a command that is ignored or faults writes none of these registers, and each command that completes
leaves all but those it is a writer of as they were. -/
theorem registersHaveOnlyTheirWriters : Obligations.RegistersHaveOnlyTheirWriters := by
  intro i s t hr
  rcases exec_next hr with ⟨-, rfl⟩ | ⟨-, k, rfl⟩ | ⟨-, hc⟩
  · simp
  · simp
  · cases hc with
    | dinColour => simp [stored]
    | ipixHigh p idx hidx hmode hcap hx =>
      have heven : s.x.toNat % 2 = 0 := by simpa [BitVec.getLsbD, Nat.testBit_zero] using hx
      simp [hmode, heven]
    | dinCount b hlds => simp [hlds]
    | dinTrailer b hlds => simp [hlds]
    | _ => simp

end Sys2Proof.Proofs
end

section
/-! What no command reads: `RES`, `NIPFLAGS` and the palette entries at or above `COUNT` (10_state.md R11, R14, R22). One
theorem runs a command on two states that differ there; both statements are read off it. -/

namespace Sys2Proof.Machine

/-- Other values in what no command reads. -/
abbrev State.withUnread (s : State) (v : BitVec 16) (f : Byte) (m : PalRam) : State :=
  { s with res := v, nipFlags := f, pal := m }

/-- `t'` differs from `t` only in what no command reads, and there only as `s'` does from `s`. -/
structure DiffersAs (s s' t t' : State) : Prop where
  below : ∀ a : Nat, a < t.count.toNat → t.pal.read a = t'.pal.read a
  pal : s'.pal = s.pal → t'.pal = t.pal
  res : t'.res = t.res ∨ (t'.res = s'.res ∧ t.res = s.res)
  nipFlags : t'.nipFlags = t.nipFlags ∨ (t'.nipFlags = s'.nipFlags ∧ t.nipFlags = s.nipFlags)
  rest : t' = { t with pal := t'.pal, res := t'.res, nipFlags := t'.nipFlags }

/-- Where `r` answers a next state, `r'` answers one that differs from it only as `s'` does from `s`. -/
def Follows (s s' : State) (r r' : Result) : Prop :=
  ∀ t, r = .next t → ∃ t', r' = .next t' ∧ DiffersAs s s' t t'

/-! ## Rules for the shared operations -/

theorem follows_next {s s' t t' : State} (h : DiffersAs s s' t t') : Follows s s' (.next t) (.next t') := by
  intro u hu
  cases hu
  exact ⟨t', rfl, h⟩

theorem follows_reading {s s' : State} {α : Type} {o o' : Option α} {f f' : α → State} (ho : o' = o)
    (hf : ∀ x, DiffersAs s s' (f x) (f' x)) :
    Follows s s' (reading o fun x => .next (f x)) (reading o' fun x => .next (f' x)) := by
  intro t ht
  obtain ⟨x, hx, hfx⟩ := reading_next ht
  rw [ho, hx]
  exact follows_next (hf x) t hfx

/-- The entry that an append writes is the same, and those below it were. -/
theorem read_write_eq_below {pal m : PalRam} {n : BitVec 9} (c : Colour)
    (h : ∀ a : Nat, a < n.toNat → pal.read a = m.read a) (a : Nat) (ha : a < (n + 1#9).toNat) :
    (pal.write n.toNat c).read a = (m.write n.toNat c).read a := by
  simp only [PalRam.read_write]
  split
  · rfl
  · have hle : (n + 1#9).toNat ≤ n.toNat + 1 := by bv_omega
    exact h a (by omega)

theorem entriesFrom_congr {pal m : PalRam} (i n : Nat) (h : ∀ k : Nat, k < i + n → pal.read k = m.read k) :
    m.entriesFrom i n = pal.entriesFrom i n := by
  induction n generalizing i with
  | zero => rfl
  | succ n ih =>
    simp only [PalRam.entriesFrom, h i (by omega), ih (i + 1) fun k hk => h k (by omega)]

theorem advance_withUnread (s : State) (v : BitVec 16) (f : Byte) (m : PalRam) :
    (s.withUnread v f m).advance = s.advance.withUnread v f m := by
  simp only [State.advance]
  split <;> rfl

/-- An index is coded from `MODE4`, `NIB` and the position alone. -/
theorem codeIndex_withUnread (idx : Byte) (s : State) (v : BitVec 16) (f : Byte) (m : PalRam) :
    codeIndex idx (s.withUnread v f m) = (codeIndex idx s).withUnread v f m := by
  simp only [codeIndex]
  split
  · split
    · rfl
    · next nib bytes _ => exact advance_withUnread (State.emit bytes { s with nib := nib }) v f m
  · exact advance_withUnread (s.emit [idx]) v f m

theorem codeIndex_frame (idx : Byte) (s : State) :
    (codeIndex idx s).count = s.count ∧ (codeIndex idx s).pal = s.pal ∧ (codeIndex idx s).res = s.res ∧
      (codeIndex idx s).nipFlags = s.nipFlags := by
  rcases codeIndex_cases idx s with ⟨-, he⟩ | ⟨-, -, he⟩ | ⟨-, -, -, he⟩ | ⟨-, -, -, he⟩ <;> simp [he]

/-! ## Rules for two states that agree below `COUNT` -/

section
variable {s : State} {v : BitVec 16} {f : Byte} {m : PalRam}
  (hm : ∀ a : Nat, a < s.count.toNat → s.pal.read a = m.read a)
include hm

/-- A command that leaves all of it alone. -/
theorem differsAs_kept {t : State} (hcount : t.count = s.count) (hpal : t.pal = s.pal) (hres : t.res = s.res)
    (hflags : t.nipFlags = s.nipFlags) : DiffersAs s (s.withUnread v f m) t (t.withUnread v f m) where
  below a ha := by rw [hpal]; exact hm a (hcount ▸ ha)
  pal he := he.trans hpal.symm
  res := .inr ⟨rfl, hres⟩
  nipFlags := .inr ⟨rfl, hflags⟩
  rest := rfl

theorem differsAs_setRes (x : BitVec 16) :
    DiffersAs s (s.withUnread v f m) (s.setRes x) ((s.withUnread v f m).setRes x) :=
  ⟨hm, id, .inl rfl, .inr ⟨rfl, rfl⟩, rfl⟩

theorem follows_raise (k : ErrKind) :
    Follows s (s.withUnread v f m) (.next (s.raise k)) (.next ((s.withUnread v f m).raise k)) :=
  follows_next (differsAs_kept hm rfl rfl rfl rfl)

theorem follows_inPhase {p : Phase} {body body' : Result} (hbody : Follows s (s.withUnread v f m) body body') :
    Follows s (s.withUnread v f m) (inPhase p s body) (inPhase p (s.withUnread v f m) body') := by
  unfold inPhase
  split
  · exact follows_next (differsAs_kept hm rfl rfl rfl rfl)
  · split
    · exact hbody
    · exact follows_raise hm _

theorem follows_needPalette {body body' : Result} (hbody : Follows s (s.withUnread v f m) body body') :
    Follows s (s.withUnread v f m) (needPalette s body) (needPalette (s.withUnread v f m) body') := by
  unfold needPalette
  split
  · exact follows_raise hm _
  · exact hbody

theorem follows_illegalWord : Follows s (s.withUnread v f m) (illegalWord s) (illegalWord (s.withUnread v f m)) := by
  unfold illegalWord
  split
  · exact follows_next (differsAs_kept hm rfl rfl rfl rfl)
  · exact follows_raise hm _

theorem follows_append (c : Colour) (l : LoadPos) :
    Follows s (s.withUnread v f m) (appendColour c { s with lds := l })
      (appendColour c { s.withUnread v f m with lds := l }) := by
  intro t ht
  obtain ⟨hlt, rfl⟩ := appendColour_next ht
  refine ⟨_, appendColour_of_lt hlt, read_write_eq_below c hm, ?_, .inr ⟨rfl, rfl⟩, .inr ⟨rfl, rfl⟩, rfl⟩
  exact congrArg fun pal => PalRam.write pal s.count.toNat c

theorem follows_loadByte (b : Byte) :
    Follows s (s.withUnread v f m) (loadByte b s) (loadByte b (s.withUnread v f m)) := by
  cases hl : s.lds <;> simp only [loadByte, hl]
  case tag3 => split <;> exact follows_next (differsAs_kept hm rfl rfl rfl rfl)
  case flags => exact follows_next ⟨hm, id, .inr ⟨rfl, rfl⟩, .inl rfl, rfl⟩
  case packed =>
    split
    · exact follows_next (differsAs_kept hm rfl rfl rfl rfl)
    · exact follows_append hm _ _
  case extension => exact follows_append hm _ _
  all_goals exact follows_next (differsAs_kept hm rfl rfl rfl rfl)

/-- No command reads what the two states differ in. -/
theorem exec_follows (i : Instr) : Follows s (s.withUnread v f m) (exec i s) (exec i (s.withUnread v f m)) := by
  have hm' : ∀ a : Nat, a < s.count.toNat → m.read a = s.pal.read a := fun a ha => (hm a ha).symm
  cases i with
  | qred3 | qred2 => exact follows_inPhase hm (follows_next (differsAs_setRes hm _))
  | tset => exact follows_inPhase hm (follows_next (differsAs_kept hm rfl rfl rfl rfl))
  | qnear r g b =>
    exact follows_inPhase hm <| follows_needPalette hm <|
      follows_reading (nearest_congr s _ r g b rfl rfl hm') fun x => differsAs_setRes hm _
  | pdef =>
    exact follows_inPhase hm (follows_next ⟨fun _ _ => rfl, fun _ => rfl, .inr ⟨rfl, rfl⟩, .inr ⟨rfl, rfl⟩, rfl⟩)
  | pldnip =>
    exact follows_inPhase hm <|
      follows_next ⟨fun a ha => absurd ha (Nat.not_lt_zero a), id, .inr ⟨rfl, rfl⟩, .inl rfl, rfl⟩
  | din b => exact follows_inPhase hm (follows_loadByte hm b)
  | pbegin n =>
    refine follows_inPhase hm ?_
    split
    · exact follows_raise hm _
    · exact follows_next ⟨fun a ha => absurd ha (Nat.not_lt_zero a), id, .inr ⟨rfl, rfl⟩, .inr ⟨rfl, rfl⟩, rfl⟩
  | padd r g b =>
    refine follows_inPhase hm ?_
    split
    · exact follows_raise hm _
    · exact follows_append hm _ s.lds
  | pend =>
    refine follows_inPhase hm (follows_next ⟨fun a ha => hm a ?_, id, .inr ⟨rfl, rfl⟩, .inr ⟨rfl, rfl⟩, rfl⟩)
    dsimp only at ha
    split at ha
    · exact ha
    · exact absurd ha (Nat.not_lt_zero a)
  | pstnip x =>
    have hcs : paletteColours (s.withUnread v f m) = paletteColours s :=
      entriesFrom_congr 0 s.count.toNat (by simpa using hm)
    exact follows_inPhase hm <| follows_needPalette hm <|
      follows_reading hcs fun cs => differsAs_kept hm rfl rfl rfl rfl
  | pget k =>
    refine follows_inPhase hm ?_
    split
    · exact follows_raise hm _
    · exact follows_reading (hm' _ (Nat.not_le.mp ‹_›)) fun c => differsAs_setRes hm _
  | ibegin8 =>
    exact follows_inPhase hm <| follows_needPalette hm <| follows_next (differsAs_kept hm rfl rfl rfl rfl)
  | ibegin4 w h =>
    refine follows_inPhase hm (follows_needPalette hm ?_)
    split
    · exact follows_raise hm _
    · split
      · exact follows_raise hm _
      · exact follows_next (differsAs_kept hm rfl rfl rfl rfl)
  | ipix p =>
    refine follows_inPhase hm (follows_reading (pixelIndex_congr s _ p rfl rfl hm') fun idx => ?_)
    obtain ⟨hcount, hpal, hres, hflags⟩ := codeIndex_frame idx s
    rw [codeIndex_withUnread idx s v f m]
    exact differsAs_kept hm hcount hpal hres hflags

end

/-! ## Entries at or above `COUNT` -/

theorem SameBelowCount.setPort {s s' : State} (h : SameBelowCount s s') (p : List HostEvent) :
    SameBelowCount { s with port := p } { s' with port := p } := by
  obtain ⟨hbelow, hs'⟩ := h
  exact ⟨hbelow, congrArg (fun u : State => { u with port := p }) hs'⟩

theorem SameBelowCount.port_eq {s s' : State} (h : SameBelowCount s s') : s'.port = s.port := by
  obtain ⟨-, hs'⟩ := h
  rw [hs']

theorem DiffersAs.sameBelowCount {s s' t t' : State} (h : DiffersAs s s' t t') (hres : s'.res = s.res)
    (hflags : s'.nipFlags = s.nipFlags) : SameBelowCount t t' := by
  have hr : t'.res = t.res := h.res.elim id fun ⟨hv, hk⟩ => hv.trans (hres.trans hk.symm)
  have hf : t'.nipFlags = t.nipFlags := h.nipFlags.elim id fun ⟨hv, hk⟩ => hv.trans (hflags.trans hk.symm)
  refine ⟨h.below, h.rest.trans ?_⟩
  rw [hr, hf]

theorem runEvent_sameBelowCount (e : HostEvent) {s s' t : State} (h : SameBelowCount s s')
    (hr : runEvent e s = .next t) : ∃ t', runEvent e s' = .next t' ∧ SameBelowCount t t' := by
  obtain ⟨hbelow, hs'⟩ := h
  have hfollows : ∀ {r r' : Result}, Follows s (s.withUnread s.res s.nipFlags s'.pal) r r' → r = .next t →
      ∃ t', r' = .next t' ∧ SameBelowCount t t' := fun hf hr =>
    have ⟨t', hr', hd⟩ := hf t hr
    ⟨t', hr', hd.sameBelowCount rfl rfl⟩
  rw [hs']
  cases e with
  | reset =>
    refine ⟨_, rfl, ?_⟩
    cases hr
    exact ⟨fun _ _ => rfl, rfl⟩
  | command cw =>
    cases hd : decode cw with
    | ok i =>
      simp only [runEvent, runWord_of_ok hd] at hr ⊢
      exact hfollows (exec_follows hbelow i) hr
    | error q =>
      simp only [runEvent, runWord_of_error hd] at hr ⊢
      exact hfollows (follows_illegalWord hbelow) hr

end Sys2Proof.Machine

namespace Sys2Proof.Proofs

open Sys2Proof.Machine

/-- Settles O59: the two states have the same port, and the event at it runs alike on both. -/
theorem entriesAboveCountAreNeverRead : Obligations.EntriesAboveCountAreNeverRead := by
  intro s s' t h hr
  cases hport : s.port with
  | nil =>
    rw [step_nil hport] at hr
    exact ⟨s', step_nil (h.port_eq.trans hport), next_eq hr ▸ h⟩
  | cons e rest =>
    rw [step_cons hport] at hr
    rw [step_cons (h.port_eq.trans hport)]
    exact runEvent_sameBelowCount e (h.setPort rest) hr

/-- Settles O60: the case of `exec_follows` in which the palette RAM is the same. -/
theorem resAndNipFlagsAreNeverRead : Obligations.ResAndNipFlagsAreNeverRead := by
  intro i s t v f hr
  obtain ⟨t', hr', hd⟩ := exec_follows (v := v) (f := f) (m := s.pal) (fun _ _ => rfl) i t hr
  refine ⟨t', hr', hd.rest.trans ?_, hd.res, hd.nipFlags⟩
  rw [hd.pal rfl]

end Sys2Proof.Proofs
end

section
/-! The palette RAM and the output stream: which commands write them, and how (20_memory.md R42, R43, R50). -/

namespace Sys2Proof.Machine

/-- Only the entry at the address of a write reads otherwise after it. -/
theorem PalRam.eq_of_read_write_ne {m : PalRam} {n a : Nat} {c : Colour}
    (h : (m.write n c).read a ≠ m.read a) : a = n := by
  by_contra hne
  exact h (m.read_write_other c hne)

theorem State.advance_phase_ne_halt {s : State} (h : s.phase ≠ .halt) : s.advance.phase ≠ .halt := by
  intro hhalt
  obtain ⟨hidle, -, -⟩ := State.advance_closes (hhalt.trans_ne h.symm)
  exact nomatch hhalt.symm.trans hidle

/-- A command that completes takes no fault. -/
theorem Completes.phase_ne_halt {i : Instr} {s t : State} (hc : Completes s i t) (hp : s.phase = acceptedIn i) :
    t.phase ≠ .halt := by
  have hs : s.phase ≠ .halt := hp ▸ acceptedIn_ne_halt i
  cases hc with
  | pldnip | dinWrongTag | dinTrailer | pbegin | pend => nofun
  | ibegin8 | ibegin4 => rw [openImage_phase]; split <;> nofun
  | ipixByte | ipixHigh | ipixLow => exact State.advance_phase_ne_halt hs
  | _ => exact hs

theorem Completes.out_prefix {i : Instr} {s t : State} (hc : Completes s i t) : s.out <+: t.out := by
  cases hc with
  | pstnip | ibegin8 | ibegin4 => exact List.prefix_append _ _
  | ipixByte | ipixLow => rw [State.advance_out]; exact List.prefix_append _ _
  | ipixHigh => rw [State.advance_out]
  | _ => exact List.prefix_rfl

theorem exec_out_prefix {i : Instr} {s t : State} (hr : exec i s = .next t) : s.out <+: t.out := by
  rcases exec_next hr with ⟨-, rfl⟩ | ⟨-, k, rfl⟩ | ⟨-, hc⟩
  · exact List.prefix_rfl
  · exact List.prefix_rfl
  · exact hc.out_prefix

theorem runEvent_out_prefix {e : HostEvent} {s t : State} (hr : runEvent e s = .next t) : s.out <+: t.out := by
  cases e with
  | reset => cases next_eq hr; exact List.prefix_rfl
  | command cw =>
    cases hd : decode cw with
    | ok i => exact exec_out_prefix ((runWord_of_ok hd).symm.trans hr)
    | error r =>
      rcases illegalWord_next ((runWord_of_error hd).symm.trans hr) with ⟨-, rfl⟩ | ⟨-, rfl⟩ <;>
        exact List.prefix_rfl

end Sys2Proof.Machine

namespace Sys2Proof.Proofs

open Sys2Proof.Machine

/-- Settles O18: of the commands that complete, only `PDEF` and the two that append a colour write the RAM. -/
theorem paletteRamFrame : Obligations.PaletteRamFrame := by
  intro i s t a hr hne
  rcases exec_next hr with ⟨-, rfl⟩ | ⟨-, k, rfl⟩ | ⟨-, hc⟩
  · exact absurd rfl hne
  · exact absurd rfl hne
  · cases hc with
    | pdef => exact .inl rfl
    | dinColour b c _ hlds =>
      have hpos : s.lds = .packed ∧ s.ldExt = false ∨ s.lds = .extension :=
        hlds.imp (fun ⟨hl, hx, _⟩ => ⟨hl, hx⟩) And.left
      exact .inr (.inl ⟨PalRam.eq_of_read_write_ne hne, b, rfl, hpos⟩)
    | padd r g b => exact .inr (.inr ⟨PalRam.eq_of_read_write_ne hne, r, g, b, rfl⟩)
    | ipixByte | ipixHigh | ipixLow => simp at hne
    | _ => exact absurd rfl hne

/-- Settles O19: a step performs at most one event, which appends to the stream or leaves it; of the commands that
complete, only those named append. -/
theorem outputOnlyGrows : Obligations.OutputOnlyGrows := by
  refine ⟨fun s t hr => ?_, fun i s t hr hne => ?_⟩
  · cases hport : s.port with
    | nil => cases next_eq ((step_nil hport).symm.trans hr); exact List.prefix_rfl
    | cons e rest => exact runEvent_out_prefix (s := { s with port := rest }) ((step_cons hport).symm.trans hr)
  · rcases exec_next hr with ⟨-, rfl⟩ | ⟨-, k, rfl⟩ | ⟨hp, hc⟩
    · exact absurd rfl hne
    · exact absurd rfl hne
    · refine ⟨hc.phase_ne_halt hp, ?_⟩
      cases hc with
      | pstnip x => exact .inl ⟨x, rfl⟩
      | ibegin8 w h => exact .inr (.inl ⟨w, h, .inl rfl⟩)
      | ibegin4 w h => exact .inr (.inl ⟨w, h, .inr rfl⟩)
      | ipixByte p | ipixHigh p | ipixLow p => exact .inr (.inr ⟨p, rfl⟩)
      | _ => exact absurd rfl hne

end Sys2Proof.Proofs
end

section
/-! The command word (30_encoding.md R60 to R67): encoder and decoder are inverse, and a row of the opcode map selects
the words of its own command. -/

namespace Sys2Proof

open Sys2Proof.Machine Sys2Proof.Claims

/-! ## Encoder and decoder -/

@[simp] theorem opOf_encode (i : Instr) : opOf (encode i) = opcodeOf i := opOf_append _ _

@[simp] theorem argOf_encode (i : Instr) : argOf (encode i) = argFor i := argOf_append _ _

/-- A command's operand field is read back with the format of the command's opcode. -/
theorem decode_encode (i : Instr) : decode (encode i) = .ok i := by
  unfold decode
  rw [opOf_encode, argOf_encode]
  cases i with
  | qred3 b | qred2 b | din b | pget b | tset b => exact readByte_argByte b _
  | qnear r g b | padd r g b => exact readColour_argColour r g b _
  | pdef | pldnip | pend | ipix => rfl
  | pbegin n => exact readCount_argCount n _
  | pstnip x => exact readFlag_argFlag x _
  | ibegin8 w h | ibegin4 w h => exact readDims_argDims w h _

/-- Opcode and operand field are all of a word. -/
theorem encode_of_decode {cw : CommandWord} {i : Instr} (h : decode cw = .ok i) : encode i = cw := by
  obtain ⟨hop, harg⟩ := decode_fields h
  calc encode i = opOf cw ++ argOf cw := by rw [encode, hop, harg]
    _ = cw := opOf_append_argOf cw

/-! ## Operands in their fields (30_encoding.md R61, R62) -/

theorem Instr.wellFormed_eq_true (i : Instr) : i.wellFormed = true := by
  cases i with
  | qred3 b | qred2 b | din b | pget b | tset b => exact Laws.operandsFit_one b
  | qnear r g b | padd r g b => exact Laws.operandsFit_three r g b
  | pdef | pldnip | pend => rfl
  | pbegin n => exact Laws.operandsFit_one n
  | pstnip x => exact Laws.OperandsFit.pstnip x
  | ibegin8 w h | ibegin4 w h => exact Laws.operandsFit_two w h
  | ipix p => exact Laws.operandsFit_one p

/-- The assembler lays a command's operands as its operand field has them. -/
theorem layOperands_operands (i : Instr) : layOperands i.format.widths i.operands 0 = (argFor i).toNat := by
  cases i with
  | qred3 b | qred2 b | din b | pget b | tset b =>
    calc b.toNat * 2 ^ 0 + 0
      _ = (argByte b).toNat := by rw [argByte_toNat]; omega
  | qnear r g b | padd r g b =>
    calc r.toNat * 2 ^ 0 + (g.toNat * 2 ^ 8 + (b.toNat * 2 ^ 16 + 0))
      _ = (argColour r g b).toNat := by rw [argColour_toNat]; omega
  | pdef | pldnip | pend => rfl
  | pbegin n =>
    calc n.toNat * 2 ^ 0 + 0
      _ = (0#16 ++ n : BitVec 32).toNat := by rw [argCount_toNat]; omega
  | pstnip x => cases x <;> rfl
  | ibegin8 w h | ibegin4 w h =>
    calc w.toNat * 2 ^ 0 + (h.toNat * 2 ^ 16 + 0)
      _ = (h ++ w : BitVec 32).toNat := by rw [argDims_toNat]; omega
  | ipix p =>
    calc p.toNat * 2 ^ 0 + 0
      _ = p.toNat := by omega

/-- Operands that fit their fields, laid from bit `pos` up, reach no bit above the fields. -/
theorem layOperands_add_le {ws vs : List Nat} (h : operandsFit ws vs = true) (pos : Nat) :
    layOperands ws vs pos + 2 ^ pos ≤ 2 ^ (pos + ws.sum) := by
  induction ws generalizing vs pos with
  | nil => cases vs <;> simp [layOperands]
  | cons w ws ih =>
    cases vs with
    | nil => cases h
    | cons v vs =>
      simp only [operandsFit, Bool.and_eq_true, decide_eq_true_eq] at h
      obtain ⟨hv, hvs⟩ := h
      calc v * 2 ^ pos + layOperands ws vs (pos + w) + 2 ^ pos
        _ = (v + 1) * 2 ^ pos + layOperands ws vs (pos + w) := by ring
        _ ≤ 2 ^ w * 2 ^ pos + layOperands ws vs (pos + w) := by gcongr; exact hv
        _ = layOperands ws vs (pos + w) + 2 ^ (pos + w) := by ring
        _ ≤ 2 ^ (pos + w + ws.sum) := ih hvs (pos + w)
        _ = 2 ^ (pos + (w :: ws).sum) := by rw [List.sum_cons, Nat.add_assoc]

/-- A command sets no reserved bit (30_encoding.md R65). -/
theorem argFor_toNat_lt (i : Instr) : (argFor i).toNat < 2 ^ i.format.widths.sum := by
  have h := layOperands_add_le i.wellFormed_eq_true 0
  rwa [layOperands_operands, Nat.zero_add] at h

/-! ## What each format accepts (30_encoding.md R65) -/

section
variable {arg : BitVec 32}

theorem readNone_of_lt (h : arg.toNat < 2 ^ 0) (i : Instr) : ∃ j, readNone arg i = .ok j :=
  ⟨_, if_pos (BitVec.eq_of_toNat_eq (by simpa using h))⟩

theorem readByte_of_lt (h : arg.toNat < 2 ^ 8) (mk : Byte → Instr) : ∃ i, readByte arg mk = .ok i :=
  ⟨_, if_pos ((extract_eq_zero ..).mpr (by omega))⟩

theorem readFlag_of_lt (h : arg.toNat < 2 ^ 1) (mk : Bool → Instr) : ∃ i, readFlag arg mk = .ok i :=
  ⟨_, if_pos ((extract_eq_zero ..).mpr (by omega))⟩

theorem readCount_of_lt (h : arg.toNat < 2 ^ 16) (mk : BitVec 16 → Instr) : ∃ i, readCount arg mk = .ok i :=
  ⟨_, if_pos ((extract_eq_zero ..).mpr (by omega))⟩

theorem readColour_of_lt (h : arg.toNat < 2 ^ 24) (mk : Byte → Byte → Byte → Instr) :
    ∃ i, readColour arg mk = .ok i :=
  ⟨_, if_pos ((extract_eq_zero ..).mpr (by omega))⟩

end

/-! ## The opcode map (30_encoding.md R63) -/

/-- A row's match is its opcode alone; its mask leaves free what the operands of its format fill. -/
theorem opcodeRows_bits : ∀ row ∈ opcodeRows,
    row.matchBits = row.opcode ++ 0#32 ∧ row.mask = BitVec.allOnes 40 <<< row.format.widths.sum := by
  decide

theorem opcodeRows_opcode_nodup : (opcodeRows.map (·.opcode)).Nodup := by decide

theorem row_eq_of_opcode_eq {row row' : OpcodeRow} (hrow : row ∈ opcodeRows) (hrow' : row' ∈ opcodeRows)
    (h : row.opcode = row'.opcode) : row = row' :=
  List.inj_on_of_nodup_map opcodeRows_opcode_nodup hrow hrow' h

/-- The row of a command, found by its mnemonic. -/
theorem exists_row (i : Instr) : ∃ row, opcodeRows.find? (·.mnemonic == i.mnemonic) = some row ∧
    i.mnemonic = row.mnemonic ∧ i.format = row.format ∧ opcodeOf i = row.opcode := by
  cases i <;> exact ⟨_, rfl, rfl, rfl, rfl⟩

/-- A word selects a row by the row's opcode above an operand field with no reserved bit set. -/
theorem selects_iff {row : OpcodeRow} (hrow : row ∈ opcodeRows) (cw : CommandWord) :
    Selects cw row ↔ opOf cw = row.opcode ∧ (argOf cw).toNat < 2 ^ row.format.widths.sum := by
  obtain ⟨hmatch, hmask⟩ := opcodeRows_bits row hrow
  rw [Selects, and_mask_eq_iff cw _ _ _ hmask, hmatch, word_toNat, ← BitVec.toNat_inj, opOf_toNat, argOf_toNat]
  cases row.format <;> simp only [Format.widths, List.sum_cons, List.sum_nil, BitVec.toNat_ofNat] <;> omega

theorem row_eq_of_selects {cw : CommandWord} {row row' : OpcodeRow} (hrow : row ∈ opcodeRows)
    (hrow' : row' ∈ opcodeRows) (h : Selects cw row) (h' : Selects cw row') : row = row' := by
  obtain ⟨hop, -⟩ := (selects_iff hrow cw).mp h
  obtain ⟨hop', -⟩ := (selects_iff hrow' cw).mp h'
  exact row_eq_of_opcode_eq hrow hrow' (hop.symm.trans hop')

/-- A word that selects a row is a command: the decoder reads the row's opcode with the row's format. -/
theorem exists_decode_of_selects {cw : CommandWord} {row : OpcodeRow} (hrow : row ∈ opcodeRows)
    (h : Selects cw row) : ∃ i, decode cw = .ok i := by
  obtain ⟨hop, harg⟩ := (selects_iff hrow cw).mp h
  unfold decode
  rw [hop]
  simp only [opcodeRows, List.mem_cons, List.not_mem_nil, or_false] at hrow
  rcases hrow with rfl | rfl | rfl | rfl | rfl | rfl | rfl | rfl | rfl | rfl | rfl | rfl | rfl | rfl | rfl
  exacts [readByte_of_lt harg _, readByte_of_lt harg _, readColour_of_lt harg _,
    readNone_of_lt harg _, readNone_of_lt harg _, readByte_of_lt harg _,
    readCount_of_lt harg _, readColour_of_lt harg _, readNone_of_lt harg _,
    readFlag_of_lt harg _, readByte_of_lt harg _, readByte_of_lt harg _,
    ⟨_, rfl⟩, ⟨_, rfl⟩, ⟨_, rfl⟩]

/-- The word of a command selects the row of the command's opcode and format. -/
theorem encode_selects {i : Instr} {row : OpcodeRow} (hrow : row ∈ opcodeRows) (hformat : i.format = row.format)
    (hop : opcodeOf i = row.opcode) : Selects (encode i) row := by
  rw [selects_iff hrow, opOf_encode, argOf_encode, ← hformat]
  exact ⟨hop, argFor_toNat_lt i⟩

/-- A command's word selects some row. -/
theorem exists_selects_encode (i : Instr) : ∃ row ∈ opcodeRows, Selects (encode i) row ∧
    i.mnemonic = row.mnemonic ∧ i.format = row.format ∧ opcodeOf i = row.opcode := by
  obtain ⟨row, hfind, hname, hformat, hop⟩ := exists_row i
  have hrow : row ∈ opcodeRows := List.mem_of_find?_eq_some hfind
  exact ⟨row, hrow, encode_selects hrow hformat hop, hname, hformat, hop⟩

end Sys2Proof

namespace Sys2Proof.Proofs

open Sys2Proof.Machine Sys2Proof.Claims

/-- Settles O1: each operand format reads back what it wrote. -/
theorem decodeInvertsEncode : Obligations.DecodeInvertsEncode := decode_encode

/-- Settles O2: a decoded word is the command's opcode above the command's operand field. -/
theorem encodeInvertsDecode : Obligations.EncodeInvertsDecode := fun _ _ => encode_of_decode

/-- Settles O3: the command of a word that selects a row has a row of its own, which the word selects too; rows that
select one word are equal, since their opcodes are. -/
theorem decodeSelectsOpcodeRow : Obligations.DecodeSelectsOpcodeRow := by
  intro cw
  refine ⟨fun row hrow => ⟨fun hsel => ?_, ?_⟩, fun row hrow row' hrow' => row_eq_of_selects hrow hrow'⟩
  · obtain ⟨i, hdec⟩ := exists_decode_of_selects hrow hsel
    obtain ⟨row', hrow', hsel', hmeaning⟩ := exists_selects_encode i
    rw [encode_of_decode hdec] at hsel'
    cases row_eq_of_selects hrow hrow' hsel hsel'
    exact ⟨i, hdec, hmeaning⟩
  · rintro ⟨i, hdec, -, hformat, hop⟩
    rw [← encode_of_decode hdec]
    exact encode_selects hrow hformat hop

/-- Settles O4: a word decodes exactly when it selects a row. -/
theorem wordMatchingNoRowRaisesParameterError : Obligations.WordMatchingNoRowRaisesParameterError := by
  intro cw rest s hport hphase
  refine ⟨fun hnone => ?_, fun ⟨row, hrow, hsel⟩ => ?_⟩
  · cases hdec : decode cw with
    | ok i =>
      obtain ⟨row, hrow, hsel, -⟩ := exists_selects_encode i
      rw [encode_of_decode hdec] at hsel
      exact absurd hsel (hnone row hrow)
    | error r =>
      calc step s = runWord cw { s with port := rest } := step_cons hport
        _ = illegalWord { s with port := rest } := runWord_of_error hdec
        _ = .next (faulted .parameterError { s with port := rest }) := if_neg hphase
  · obtain ⟨i, hdec⟩ := exists_decode_of_selects hrow hsel
    exact ⟨i, hdec, stepRunsDecodedCommand s cw rest i hport hdec⟩

/-- Settles O6: the mnemonic finds the command's row, whose match is the opcode, and the operands are laid as the
operand field below it. -/
theorem assembledCommandIsItsWord : Obligations.AssembledCommandIsItsWord := by
  intro i
  obtain ⟨row, hfind, -, hformat, hop⟩ := exists_row i
  obtain ⟨hmatch, -⟩ := opcodeRows_bits row (List.mem_of_find?_eq_some hfind)
  have hfit : operandsFit i.format.widths i.operands = true := i.wellFormed_eq_true
  have hword : row.matchBits ||| BitVec.ofNat 40 (argFor i).toNat = encode i :=
    calc row.matchBits ||| BitVec.ofNat 40 (argFor i).toNat
      _ = (opcodeOf i ++ 0#32) ||| (0#8 ++ argFor i) := by
        rw [hmatch, hop, BitVec.ofNat_toNat, BitVec.setWidth_eq_append (by decide)]; rfl
      _ = encode i := by rw [BitVec.or_append, BitVec.or_zero, BitVec.zero_or, encode]
  simp only [assemble, hfind, ← hformat, hfit, layOperands_operands, hword, if_true]

end Sys2Proof.Proofs
end

section
/-! The colour encodings (30_encoding.md R71 to R74): the packed and extension bytes as concatenations of the colour's
fields, and what the two unpackings read back from them. -/

namespace Sys2Proof.Machine

open Sys2Proof.Claims

/-- The packed byte holds red, green and the two high bits of blue (R71). -/
theorem pack8_eq_append (c : Colour) : pack8 c = c.r ++ c.g ++ c.b.extractLsb' 1 2 := by
  have hblue : (c.b.extractLsb' 1 2).setWidth 8 = c.b.setWidth 8 >>> 1 := by
    apply BitVec.eq_of_toNat_eq
    rw [BitVec.toNat_setWidth, toNat_extract, BitVec.toNat_ushiftRight, BitVec.toNat_setWidth,
      Nat.shiftRight_eq_div_pow]
    omega
  calc pack8 c
    _ = (c.r ++ c.g ++ c.b.extractLsb' 1 2).setWidth 8 := by
      rw [BitVec.setWidth_append_append_eq_shiftLeft_setWidth_or, hblue, pack8]
    _ = c.r ++ c.g ++ c.b.extractLsb' 1 2 := BitVec.setWidth_eq _

theorem pack8_toNat (c : Colour) : (pack8 c).toNat = c.r.toNat * 32 + c.g.toNat * 4 + c.b.toNat / 2 := by
  rw [pack8_eq_append, toNat_append_add, toNat_append_add, toNat_extract]
  omega

theorem extByte_toNat (c : Colour) : (extByte c).toNat = c.b.toNat % 2 := by
  simp [extByte, Nat.and_one_is_mod]

/-- Blue rebuilt from its two high bits and a low one, as both unpackings do (R73, R74). -/
theorem blue_eq_append (hi : BitVec 2) (lo : BitVec 1) : (hi.setWidth 3 <<< 1) ||| lo.setWidth 3 = hi ++ lo := by
  rw [← BitVec.setWidth_append_eq_shiftLeft_setWidth_or]; exact BitVec.setWidth_eq _

/-! ## The fields of the bytes -/

@[simp] theorem pack8_red (c : Colour) : (pack8 c).extractLsb' 5 3 = c.r := by
  apply BitVec.eq_of_toNat_eq
  rw [toNat_extract, pack8_toNat]; omega

@[simp] theorem pack8_green (c : Colour) : (pack8 c).extractLsb' 2 3 = c.g := by
  apply BitVec.eq_of_toNat_eq
  rw [toNat_extract, pack8_toNat]; omega

/-- A field of the packed byte within its two blue bits is the field of blue one bit higher. -/
theorem pack8_blue_field (c : Colour) {lo len : Nat} (h : lo + len ≤ 2) :
    (pack8 c).extractLsb' lo len = c.b.extractLsb' (1 + lo) len := by
  rw [pack8_eq_append, BitVec.extractLsb'_append_eq_of_add_le h]
  ext k hk
  simp [show lo + k < 2 by omega, Nat.add_assoc]

@[simp] theorem extByte_bit0 (c : Colour) : (extByte c).extractLsb' 0 1 = c.b.extractLsb' 0 1 := by
  apply BitVec.eq_of_toNat_eq
  rw [toNat_extract, toNat_extract, extByte_toNat]; omega

/-! ## What the unpackings read back -/

theorem unpack9_pack8_extByte (c : Colour) : unpack9 (pack8 c) (extByte c) = c := by
  have hblue : c.b.extractLsb' 1 2 ++ c.b.extractLsb' 0 1 = c.b := BitVec.extractLsb'_append_extractLsb'
  rw [unpack9, blue_eq_append, pack8_red, pack8_green, pack8_blue_field c (by decide), extByte_bit0, hblue]

/-- The blue that `unpack8` rebuilds, its low bit the OR of the two stored ones (R73). -/
theorem rebuiltBlue_eq_append (b : BitVec 3) :
    b.extractLsb' 1 2 ++ (b.extractLsb' 2 1 ||| b.extractLsb' 1 1) = rebuiltBlue b := by
  revert b; decide

theorem unpack8_pack8 (c : Colour) : unpack8 (pack8 c) = { c with b := rebuiltBlue c.b } := by
  rw [unpack8, blue_eq_append, pack8_red, pack8_green, pack8_blue_field c (by decide),
    pack8_blue_field c (by decide), pack8_blue_field c (by decide), rebuiltBlue_eq_append]

theorem rebuiltBlue_eq_self_iff (b : BitVec 3) : rebuiltBlue b = b ↔ b = 0 ∨ b = 3 ∨ b = 5 ∨ b = 7 := by
  revert b; decide

end Sys2Proof.Machine

namespace Sys2Proof.Proofs

open Sys2Proof.Machine

/-- Settles O30, from the fields of the packed and extension bytes. -/
theorem colourBytesGiveColourBack : Obligations.ColourBytesGiveColourBack := fun c =>
  ⟨unpack9_pack8_extByte c, unpack8_pack8 c, rebuiltBlue_eq_self_iff c.b, pack8_toNat c, extByte_toNat c⟩

end Sys2Proof.Proofs
end

section
/-! Words with a reserved operand bit set (30_encoding.md R65): `ParameterError`, whatever the command. -/

namespace Sys2Proof

open Sys2Proof.Machine Sys2Proof.Claims

/-- Commands of one opcode have one row, and so one format. -/
theorem format_eq_of_opcodeOf_eq {i j : Instr} (h : opcodeOf i = opcodeOf j) : i.format = j.format := by
  obtain ⟨row, hfind, -, hformat, hop⟩ := exists_row i
  obtain ⟨row', hfind', -, hformat', hop'⟩ := exists_row j
  have hrow : row = row' := row_eq_of_opcode_eq (List.mem_of_find?_eq_some hfind)
    (List.mem_of_find?_eq_some hfind') (hop.symm.trans (h.trans hop'))
  rw [hformat, hformat', hrow]

/-- A field of a word's low 32 bits that begins above all that the operand field reaches is zero. -/
theorem extract_eq_zero_of_argOf_lt {cw : CommandWord} {lo len : Nat} (hlen : lo + len ≤ 32)
    (h : (argOf cw).toNat < 2 ^ lo) : cw.extractLsb' lo len = 0#len := by
  have hfield : (argOf cw).extractLsb' lo len = cw.extractLsb' lo len := by
    rw [argOf, BitVec.extractLsb'_extractLsb'_of_le hlen]
  rw [← hfield, extract_eq_zero, Nat.div_eq_of_lt h, Nat.zero_mod]

/-- The `len` bits of a word above the operands of a command's format are reserved: a word of the command's opcode with
one of them set is no command, since a command sets none. -/
theorem parameterErrorOnReserved (i : Instr) {len : Nat} (hlen : i.format.widths.sum + len = 32) (s : State) :
    ParameterErrorOnReserved (opcodeOf i) i.format.widths.sum len s := by
  intro cw hop hset hhalt
  cases hdec : decode cw with
  | error r => exact (runWord_of_error hdec).trans (if_neg hhalt)
  | ok j =>
    obtain ⟨hopcode, harg⟩ := decode_fields hdec
    have hlt : (argOf cw).toNat < 2 ^ i.format.widths.sum := by
      rw [← harg, ← format_eq_of_opcodeOf_eq (hopcode.trans hop)]
      exact argFor_toNat_lt j
    exact absurd (extract_eq_zero_of_argOf_lt hlen.le hlt) hset

end Sys2Proof
end

section
/-! Snapping to a level table (40_quantizer.md R92 to R95): the scan finds the lowest index of a nearest level, which
no other index is. -/

namespace Sys2Proof.Machine

/-- `LowestNearest T v k level`: `level` stands at index `k` of the table, no level is nearer to `v`, and those before
it are further. -/
structure LowestNearest (T : List Nat) (v k level : Nat) : Prop where
  level_at : T[k]? = some level
  nearest : ∀ other ∈ T, absDiff level v ≤ absDiff other v
  lowest : ∀ other ∈ T.take k, absDiff level v < absDiff other v

theorem absDiff_eq_zero {a b : Nat} : absDiff a b = 0 ↔ a = b := by
  unfold absDiff; omega

theorem LowestNearest.cons_head {T : List Nat} {v level : Nat}
    (h : ∀ other ∈ T, absDiff level v ≤ absDiff other v) : LowestNearest (level :: T) v 0 level where
  level_at := rfl
  nearest := List.forall_mem_cons.mpr ⟨Nat.le_refl _, h⟩
  lowest := nofun

theorem LowestNearest.cons_tail {T : List Nat} {v k level first : Nat} (h : LowestNearest T v k level)
    (hlt : absDiff level v < absDiff first v) : LowestNearest (first :: T) v (k + 1) level where
  level_at := h.level_at
  nearest := List.forall_mem_cons.mpr ⟨Nat.le_of_lt hlt, h.nearest⟩
  lowest := List.forall_mem_cons.mpr ⟨hlt, h.lowest⟩

theorem LowestNearest.lt_length {T : List Nat} {v k level : Nat} (h : LowestNearest T v k level) : k < T.length :=
  (List.getElem?_eq_some_iff.mp h.level_at).1

theorem LowestNearest.lt_of_getElem? {T : List Nat} {v k level j other : Nat} (h : LowestNearest T v k level)
    (hj : j < k) (hother : T[j]? = some other) : absDiff level v < absDiff other v :=
  h.lowest other (List.mem_of_getElem? ((List.getElem?_take_of_lt hj).trans hother))

/-- Of two nearest levels the one further on is not the lowest. -/
theorem LowestNearest.index_le {T : List Nat} {v k level k' level' : Nat} (h : LowestNearest T v k level)
    (h' : LowestNearest T v k' level') : k ≤ k' := by
  by_contra hlt
  have hfurther : absDiff level v < absDiff level' v := h.lt_of_getElem? (Nat.not_le.mp hlt) h'.level_at
  exact absurd hfurther (Nat.not_lt.mpr (h'.nearest level (List.mem_of_getElem? h.level_at)))

/-! ## The scan (R92) -/

theorem improves_of_lt {d e : Nat} {best : Option Nat} (hlt : d < e) (h : improves e best = true) :
    improves d best = true := by
  cases best with
  | none => rfl
  | some b => simp only [improves, decide_eq_true_eq] at h ⊢; omega

theorem lt_of_improves {d e : Nat} {best : Option Nat} (h : improves d best = true) (h' : improves e best = false) :
    d < e := by
  cases best with
  | none => cases h'
  | some b => simp only [improves, decide_eq_true_eq, decide_eq_false_iff_not] at h h'; omega

theorem improves_zero {best : Option Nat} (h : best ≠ some 0) : improves 0 best = true := by
  cases best with
  | none => rfl
  | some b => exact decide_eq_true (Nat.pos_of_ne_zero fun hb => h (hb ▸ rfl))

/-- All that the scan can do: keep its index, if no level is nearer than the best so far; else find the lowest nearest
of the levels still to come. That the best so far is not 0 is what lets it stop at a level equal to `v`. -/
theorem reduceLoop_cases (v : Nat) (T : List Nat) (i : Nat) (best : Option Nat) (index : Nat) (hbest : best ≠ some 0) :
    (reduceLoop v T i best index = index ∧ ∀ t ∈ T, improves (absDiff t v) best = false) ∨
      ∃ k level, reduceLoop v T i best index = i + k ∧ LowestNearest T v k level ∧
        improves (absDiff level v) best = true := by
  induction T generalizing i best index with
  | nil => exact .inl ⟨rfl, nofun⟩
  | cons t T ih =>
    simp only [reduceLoop]
    split
    case isTrue htv =>
      have hzero : absDiff t v = 0 := absDiff_eq_zero.mpr htv
      exact .inr ⟨0, t, rfl, .cons_head fun _ _ => hzero ▸ Nat.zero_le _, hzero ▸ improves_zero hbest⟩
    case isFalse htv =>
      split
      case isTrue himp =>
        have hpos : some (absDiff t v) ≠ some 0 := fun h => htv (absDiff_eq_zero.mp (Option.some.inj h))
        rcases ih (i + 1) (some (absDiff t v)) i hpos with ⟨hr, hall⟩ | ⟨k, level, hr, hlow, hlt⟩
        · exact .inr ⟨0, t, hr, .cons_head fun u hu => Nat.not_lt.mp (of_decide_eq_false (hall u hu)), himp⟩
        · have hlt : absDiff level v < absDiff t v := of_decide_eq_true hlt
          exact .inr ⟨k + 1, level, by rw [hr]; omega, hlow.cons_tail hlt, improves_of_lt hlt himp⟩
      case isFalse himp =>
        have himp : improves (absDiff t v) best = false := Bool.eq_false_of_not_eq_true himp
        rcases ih (i + 1) best index hbest with ⟨hr, hall⟩ | ⟨k, level, hr, hlow, hlt⟩
        · exact .inl ⟨hr, List.forall_mem_cons.mpr ⟨himp, hall⟩⟩
        · exact .inr ⟨k + 1, level, by rw [hr]; omega, hlow.cons_tail (lt_of_improves hlt himp), hlt⟩

theorem reduce_lowestNearest {T : List Nat} (hT : T ≠ []) (v : Nat) : ∃ level, LowestNearest T v (reduce T v) level := by
  rcases reduceLoop_cases v T 0 none 0 nofun with ⟨-, hall⟩ | ⟨k, level, hr, hlow, -⟩
  · obtain ⟨t, ht⟩ := List.exists_mem_of_ne_nil T hT
    exact absurd (hall t ht) nofun
  · rw [Nat.zero_add] at hr
    exact ⟨level, by rwa [reduce, hr]⟩

theorem LowestNearest.reduce_eq {T : List Nat} {v k level : Nat} (h : LowestNearest T v k level) : reduce T v = k := by
  obtain ⟨level', h'⟩ := reduce_lowestNearest (List.ne_nil_of_mem (List.mem_of_getElem? h.level_at)) v
  exact Nat.le_antisymm (h'.index_le h) (h.index_le h')

theorem reduce_lt_length {T : List Nat} (hT : T ≠ []) (v : Nat) : reduce T v < T.length := by
  obtain ⟨level, h⟩ := reduce_lowestNearest hT v
  exact h.lt_length

/-! ## The two tables (R93, R94) -/

theorem reduce3_toNat (v : Byte) : (reduce3 v).toNat = reduce lut3 v.toNat :=
  Nat.mod_eq_of_lt (reduce_lt_length (T := lut3) nofun v.toNat)

theorem reduce2_toNat (v : Byte) : (reduce2 v).toNat = reduce lut2 v.toNat :=
  Nat.mod_eq_of_lt (reduce_lt_length (T := lut2) nofun v.toNat)

/-- The steps of the two tables: in each range of `v` the index given is that of the lowest nearest level. -/
theorem reduce_closed_forms (v : Nat) :
    reduce lut3 v =
      (if v ≤ 18 then 0 else if v ≤ 54 then 1 else if v ≤ 91 then 2 else if v ≤ 127 then 3
        else if v ≤ 164 then 4 else if v ≤ 200 then 5 else if v ≤ 237 then 6 else 7) ∧
    reduce lut2 v = if v ≤ 42 then 0 else if v ≤ 127 then 1 else if v ≤ 212 then 2 else 3 := by
  constructor <;> split_ifs
  all_goals
    refine LowestNearest.reduce_eq ⟨rfl, ?_, ?_⟩ <;>
      simp only [lut3, lut2, List.take_succ_cons, List.take_zero, List.forall_mem_cons, absDiff, List.not_mem_nil,
        false_implies, implies_true, and_true] <;>
      omega

/-! ## The level of a channel index (R95) -/

theorem lut3_getElem? (c : BitVec 3) : lut3[c.toNat]? = some (expand3 c) := by
  have hlt : c.toNat < lut3.length := c.isLt
  rw [expand3, List.getD_eq_getElem _ _ hlt, List.getElem?_eq_getElem hlt]

theorem expand3_le (c : BitVec 3) : expand3 c ≤ 255 := by
  revert c; decide

theorem reduce3_expand3 (c : BitVec 3) : reduce3 (BitVec.ofNat 8 (expand3 c)) = c := by
  revert c; decide

theorem expand3_injective : Function.Injective expand3 := by
  have hleft : Function.LeftInverse (fun n => reduce3 (BitVec.ofNat 8 n)) expand3 := reduce3_expand3
  exact hleft.injective

end Sys2Proof.Machine

namespace Sys2Proof.Proofs

open Sys2Proof.Machine

/-- Settles O21: the scan finds the lowest nearest level of any table, and the indices of the two tables fit the widths
of the results. -/
theorem reduceFindsLowestNearestLevel : Obligations.ReduceFindsLowestNearestLevel := by
  refine ⟨fun T v hT => ?_, reduce3_toNat, reduce2_toNat⟩
  obtain ⟨level, h⟩ := reduce_lowestNearest hT v
  exact ⟨level, h.level_at, fun j other hother =>
    ⟨h.nearest other (List.mem_of_getElem? hother), fun hj => h.lt_of_getElem? hj hother⟩⟩

/-- Settles O22: in each range the index given is the lowest nearest, and no other is. -/
theorem reduceClosedForms : Obligations.ReduceClosedForms :=
  ⟨fun v => (reduce3_toNat v).trans (reduce_closed_forms _).1, fun v => (reduce2_toNat v).trans (reduce_closed_forms _).2,
    fun c => ⟨lut3_getElem? c, reduce3_expand3 c⟩⟩

end Sys2Proof.Proofs
end

section
/-! The distance and the search (40_quantizer.md R96 to R99). -/

namespace Sys2Proof.Machine

open Sys2Proof.Claims

/-! ## The distance (R96) -/

theorem dist2_eq (c : Colour) (r g b : Byte) :
    dist2 c r g b = ((expand3 c.r : Int) - r.toNat) ^ 2 + ((expand3 c.g : Int) - g.toNat) ^ 2 +
      ((expand3 c.b : Int) - b.toNat) ^ 2 := by
  simp only [dist2, sq]

theorem channel_sq_le (c : BitVec 3) (v : Byte) : ((expand3 c : Int) - v.toNat) ^ 2 ≤ 255 ^ 2 := by
  have hc := expand3_le c
  have hv := v.isLt
  exact sq_le_sq' (by omega) (by omega)

theorem dist2_nonneg (c : Colour) (r g b : Byte) : 0 ≤ dist2 c r g b := by
  rw [dist2_eq]; positivity

theorem dist2_le (c : Colour) (r g b : Byte) : dist2 c r g b ≤ 195075 := by
  rw [dist2_eq]
  linarith [channel_sq_le c.r r, channel_sq_le c.g g, channel_sq_le c.b b]

theorem dist2_lt_bestInit (c : Colour) (r g b : Byte) : dist2 c r g b < Config.bestInit :=
  Int.lt_of_le_of_lt (dist2_le c r g b) (by decide)

/-- Only a pixel at the colour's own levels is at distance 0. -/
theorem dist2_eq_zero_iff (c : Colour) (r g b : Byte) :
    dist2 c r g b = 0 ↔ r.toNat = expand3 c.r ∧ g.toNat = expand3 c.g ∧ b.toNat = expand3 c.b := by
  have hchannel (c : BitVec 3) (v : Byte) : ((expand3 c : Int) - v.toNat) ^ 2 = 0 ↔ v.toNat = expand3 c := by
    rw [sq_eq_zero_iff]; omega
  rw [dist2_eq, add_eq_zero_iff_of_nonneg (by positivity) (by positivity),
    add_eq_zero_iff_of_nonneg (by positivity) (by positivity), hchannel, hchannel, hchannel, and_assoc]

/-- Two colours at distance 0 from one pixel are equal, since the levels are distinct. -/
theorem eq_of_dist2_eq_zero {c d : Colour} {r g b : Byte} (hc : dist2 c r g b = 0) (hd : dist2 d r g b = 0) : c = d := by
  obtain ⟨cr, cg, cb⟩ := c
  obtain ⟨dr, dg, db⟩ := d
  obtain ⟨hcr, hcg, hcb⟩ := (dist2_eq_zero_iff ..).mp hc
  obtain ⟨hdr, hdg, hdb⟩ := (dist2_eq_zero_iff ..).mp hd
  obtain rfl : cr = dr := expand3_injective (hcr.symm.trans hdr)
  obtain rfl : cg = dg := expand3_injective (hcg.symm.trans hdg)
  obtain rfl : cb = db := expand3_injective (hcb.symm.trans hdb)
  rfl

/-! ## What the search finds (R97) -/

/-- `LowestCandidate s r g b x c`: entry `x` is a candidate and has colour `c`, no candidate is nearer to the pixel, and
those before it are further. -/
structure LowestCandidate (s : State) (r g b x : Byte) (c : Colour) : Prop where
  lt_count : x.toNat < s.count.toNat
  ne_trans : x ≠ s.trans
  read : s.pal.read x.toNat = some c
  nearest : ∀ (j : Nat) (d : Colour), j < s.count.toNat → j ≠ s.trans.toNat → s.pal.read j = some d →
    dist2 c r g b ≤ dist2 d r g b
  lowest : ∀ (j : Nat) (d : Colour), j < x.toNat → j ≠ s.trans.toNat → s.pal.read j = some d →
    dist2 c r g b < dist2 d r g b

/-- With a candidate the search finds the lowest nearest, since every distance is below the initial bound. -/
theorem nearest_lowestCandidate {s : State} {r g b x : Byte} (hcount : s.count.toNat ≤ 256) (hw : s.PaletteWritten)
    (hcand : HasCandidate s) (h : nearest s r g b = some x) : ∃ c, LowestCandidate s r g b x c := by
  obtain ⟨y, hy, rfl⟩ := Option.map_eq_some_iff.mp h
  rcases searchLoop_spec _ _ _ _ _ _ _ _ y (range_pairwise _) hy with ⟨-, hall⟩ | ⟨hmem, hyt, c, hc, -, hall⟩
  · obtain ⟨i, hi, hit⟩ := hcand
    obtain ⟨d, hd⟩ := hw i hi
    exact absurd (hall i (List.mem_range.mpr hi) hit d hd) (Int.not_le.mpr (dist2_lt_bestInit d r g b))
  · have hlt : y < s.count.toNat := List.mem_range.mp hmem
    have hx : (BitVec.ofNat 8 y).toNat = y := Nat.mod_eq_of_lt (Nat.lt_of_lt_of_le hlt hcount)
    refine ⟨c, hx.symm ▸ hlt, fun he => hyt (hx.symm.trans (congrArg _ he)), hx.symm ▸ hc, ?_, ?_⟩
    · exact fun j d hj hjt hd => (hall j (List.mem_range.mpr hj) hjt d hd).1
    · intro j d hj hjt hd
      rw [hx] at hj
      exact (hall j (List.mem_range.mpr (hj.trans hlt)) hjt d hd).2 hj

/-- Of two equal entries, the search returns the higher only if the lower is no candidate (R99 (d)). -/
theorem LowestCandidate.eq_trans_of_read_eq {s : State} {r g b x : Byte} {c : Colour}
    (h : LowestCandidate s r g b x c) {j : Nat} (hj : j < x.toNat) (hread : s.pal.read j = some c) :
    j = s.trans.toNat := by
  by_contra hjt
  exact absurd (h.lowest j c hj hjt hread) (Int.lt_irrefl _)

/-! ## No candidate (R98) -/

theorem nearest_of_no_candidate {s : State} (h : ¬ HasCandidate s) (r g b : Byte) : nearest s r g b = some 0#8 := by
  have honly : ∀ i ∈ List.range s.count.toNat, i = s.trans.toNat := fun i hi =>
    not_not.mp fun hne => h ⟨i, List.mem_range.mp hi, hne⟩
  rw [nearest, searchLoop_no_candidate _ _ _ _ _ _ _ _ honly]
  rfl

/-- Entry 0 is a candidate unless it is `TRANS`, and then entry 1 is one. -/
theorem not_hasCandidate_iff {s : State} (h : 1 ≤ s.count.toNat) :
    ¬ HasCandidate s ↔ s.count = 1#9 ∧ s.trans = 0#8 := by
  have hvalues : s.count = 1#9 ∧ s.trans = 0#8 ↔ s.count.toNat = 1 ∧ s.trans.toNat = 0 := by
    simp [← BitVec.toNat_inj]
  rw [hvalues]
  constructor
  · intro hnone
    have h0 : 0 = s.trans.toNat := not_not.mp fun hne => hnone ⟨0, h, hne⟩
    have h1 : ¬ 1 < s.count.toNat := fun hlt => hnone ⟨1, hlt, by omega⟩
    omega
  · rintro ⟨hcount, htrans⟩ ⟨i, hi, hne⟩
    omega

end Sys2Proof.Machine

namespace Sys2Proof.Proofs

open Sys2Proof.Machine Sys2Proof.Claims

/-- Settles O23: each channel's difference is at most 255 either way. -/
theorem distanceIsExactAndBounded : Obligations.DistanceIsExactAndBounded := fun c r g b =>
  ⟨dist2_eq c r g b, dist2_nonneg c r g b, dist2_le c r g b, dist2_lt_bestInit c r g b⟩

/-- Settles O24, from what the loop of the search finds. -/
theorem searchFindsLowestNearestCandidate : Obligations.SearchFindsLowestNearestCandidate := by
  intro s r g b hcount hw hcand
  obtain ⟨x, hx⟩ := nearest_exists s r g b hw
  obtain ⟨c, h⟩ := nearest_lowestCandidate hcount hw hcand hx
  exact ⟨x, c, hx, h.lt_count, h.ne_trans, h.read, fun j d hj hjt hd =>
    ⟨h.nearest j d hj hjt hd, fun hlt => h.lowest j d hlt hjt hd⟩⟩

/-- Settles O25: the loop keeps the index 0 it starts with. -/
theorem searchWithoutCandidateReturnsZero : Obligations.SearchWithoutCandidateReturnsZero := fun _ r g b =>
  ⟨fun hnone => nearest_of_no_candidate hnone r g b, not_hasCandidate_iff⟩

/-- Settles O26: with a candidate the result is the lowest nearest one, and an entry equal to the pixel is nearest of
all; without one the result is 0. -/
theorem searchConsequences : Obligations.SearchConsequences := by
  intro s r g b x hcount hw hx
  have hfound (hcand : HasCandidate s) : ∃ c, LowestCandidate s r g b x c :=
    nearest_lowestCandidate hcount hw hcand hx
  refine ⟨?notTrans, ?inRange, ?exactMatch, ?equalEntries, ?reads⟩
  case notTrans =>
    intro hcand
    obtain ⟨c, h⟩ := hfound hcand
    exact h.ne_trans
  case inRange =>
    by_cases hcand : HasCandidate s
    · obtain ⟨c, h⟩ := hfound hcand
      exact .inl h.lt_count
    · exact .inr (Option.some.inj (hx.symm.trans (nearest_of_no_candidate hcand r g b)))
  case exactMatch =>
    intro j c hj hjt hread hr hg hb
    obtain ⟨d, h⟩ := hfound ⟨j, hj, hjt⟩
    have hc : dist2 c r g b = 0 := (dist2_eq_zero_iff ..).mpr ⟨hr, hg, hb⟩
    have hd : dist2 d r g b = 0 := Int.le_antisymm (hc ▸ h.nearest j c hj hjt hread) (dist2_nonneg d r g b)
    cases eq_of_dist2_eq_zero hc hd
    exact ⟨hc, h.read, h.ne_trans, h.lt_count, fun k hk hkt hkread => hkt (h.eq_trans_of_read_eq hk hkread)⟩
  case equalEntries =>
    rintro j k hjk hk hsame rfl
    by_contra hjt
    obtain ⟨c, h⟩ := hfound ⟨j, hjk.trans hk, hjt⟩
    exact hjt (h.eq_trans_of_read_eq hjk (hsame.trans h.read))
  case reads =>
    intro t hc ht hpal
    exact (nearest_congr s t r g b hc ht hpal).trans hx

end Sys2Proof.Proofs
end

section
/-! The commands of the quantizer (40_quantizer.md R100 to R102). -/

namespace Sys2Proof.Proofs

open Sys2Proof.Machine

/-- Settles O27: `QRED3` is the phase check around one write of `RES`. -/
theorem qred3DeliversLevelIndex : Obligations.Qred3DeliversLevelIndex := fun b s =>
  ⟨fun hp => exec_of_phase (i := .qred3 b) hp rfl, decode_encode (.qred3 b),
    commandOutsideItsPhaseRaisesSequenceError (.qred3 b) s, parameterErrorOnReserved (.qred3 b) rfl s⟩

/-- Settles O28: `QRED2` is the phase check around one write of `RES`. -/
theorem qred2DeliversLevelIndex : Obligations.Qred2DeliversLevelIndex := fun b s =>
  ⟨fun hp => exec_of_phase (i := .qred2 b) hp rfl, decode_encode (.qred2 b),
    commandOutsideItsPhaseRaisesSequenceError (.qred2 b) s, parameterErrorOnReserved (.qred2 b) rfl s⟩

/-- Settles O29: the emptiness check comes before the search, which answers over a written palette. -/
theorem qnearDeliversNearestIndex : Obligations.QnearDeliversNearestIndex := by
  intro r g b s
  refine ⟨fun hp hc => ?_, fun hp hc hw => ?_, decode_encode (.qnear r g b),
    commandOutsideItsPhaseRaisesSequenceError (.qnear r g b) s, parameterErrorOnReserved (.qnear r g b) rfl s⟩
  · exact (exec_of_phase (i := .qnear r g b) hp rfl).trans (needPalette_of_zero hc)
  · obtain ⟨x, hx⟩ := nearest_exists s r g b hw
    refine ⟨x, hx, ?_⟩
    rw [exec_of_phase (i := .qnear r g b) hp rfl, needPalette_of_ne hc, hx, reading_some]
    rfl

end Sys2Proof.Proofs
end

section
/-! What the two unpackings read packs to the bytes it was read from; the default colours are what the bytes 0 to 255
unpack to (30_encoding.md R71 to R74, 41_palette.md R111). -/

namespace Sys2Proof.Machine

/-! ## Packing what was unpacked -/

/-- A colour whose red, green and two high blue bits are the fields of a byte packs to that byte. -/
theorem pack8_of_fields (p : Byte) (lo : BitVec 1) :
    pack8 ⟨p.extractLsb' 5 3, p.extractLsb' 2 3, p.extractLsb' 0 2 ++ lo⟩ = p := by
  apply BitVec.eq_of_toNat_eq
  rw [pack8_toNat, toNat_append_add, toNat_extract, toNat_extract, toNat_extract]
  omega

theorem pack8_unpack8 (p : Byte) : pack8 (unpack8 p) = p := by
  rw [unpack8, blue_eq_append, pack8_of_fields]

theorem pack8_unpack9 (p e : Byte) : pack8 (unpack9 p e) = p := by
  rw [unpack9, blue_eq_append, pack8_of_fields]

/-- Of an extension byte only bit 0 is kept. -/
theorem extByte_unpack9 (p e : Byte) : extByte (unpack9 p e) = e &&& 1 := by
  apply BitVec.eq_of_toNat_eq
  have hand : (e &&& 1).toNat = e.toNat % 2 := Nat.and_one_is_mod e.toNat
  rw [extByte_toNat, unpack9, blue_eq_append, toNat_append_add, toNat_extract, toNat_extract, hand]
  omega

theorem unpack8_injective : Function.Injective unpack8 :=
  Function.LeftInverse.injective pack8_unpack8

/-! ## The default colours (41_palette.md R111) -/

/-- The low blue bit, the OR of the two stored ones, is 0 only when both are. -/
theorem or_low_bits (n : Nat) : n / 2 % 2 ||| n % 2 = if n % 4 = 0 then 0 else 1 := by
  rcases Nat.mod_two_eq_zero_or_one (n / 2) with h1 | h1 <;> rcases Nat.mod_two_eq_zero_or_one n with h0 | h0 <;>
    simp [h1, h0] <;> omega

theorem unpack8_blue_toNat (p : Byte) :
    (unpack8 p).b.toNat = 2 * (p.toNat % 4) + if p.toNat % 4 = 0 then 0 else 1 := by
  rw [unpack8, blue_eq_append, toNat_append_add, BitVec.toNat_or, toNat_extract, toNat_extract, toNat_extract,
    Nat.pow_zero, Nat.div_one, Nat.pow_one, or_low_bits]
  omega

theorem defaultColour_blue_toNat (i : Byte) :
    (defaultColour i).b.toNat = 2 * (i.toNat % 4) + if i.toNat % 4 = 0 then 0 else 1 := by
  have hfield : (i &&& 3#8).toNat = i.toNat % 4 := Nat.and_two_pow_sub_one_eq_mod i.toNat 2
  have hlow : ((i &&& 2#8) >>> 1 ||| (i &&& 1#8)).toNat = if i.toNat % 4 = 0 then 0 else 1 := by
    rw [BitVec.ushiftRight_and_distrib, ← or_low_bits]
    simp [Nat.shiftRight_eq_div_pow, Nat.and_one_is_mod]
  rw [defaultColour]
  simp only [BitVec.toNat_setWidth, BitVec.toNat_add, BitVec.toNat_shiftLeft, hfield, hlow]
  split <;> omega

/-- The formula of R111 is the decoding of R73: red and green bit by bit, blue by its value. -/
theorem defaultColour_eq_unpack8 (i : Byte) : defaultColour i = unpack8 i := by
  have hr : (defaultColour i).r = (unpack8 i).r := by
    ext k hk
    interval_cases k <;> simp [defaultColour, unpack8]
  have hg : (defaultColour i).g = (unpack8 i).g := by
    ext k hk
    interval_cases k <;> simp [defaultColour, unpack8]
  have hb : (defaultColour i).b = (unpack8 i).b :=
    BitVec.eq_of_toNat_eq ((defaultColour_blue_toNat i).trans (unpack8_blue_toNat i).symm)
  exact (Colour.mk.injEq ..).mpr ⟨hr, hg, hb⟩

end Sys2Proof.Machine

namespace Sys2Proof.Proofs

open Sys2Proof.Machine

/-- Settles O31: a default colour is what its index unpacks to, and packs to its index again. -/
theorem defaultColours : Obligations.DefaultColours := by
  refine ⟨fun i => ?_, fun i j h => unpack8_injective ?_⟩
  · rw [defaultColour_eq_unpack8, unpack8_blue_toNat, unpack8, toNat_extract, toNat_extract]
    exact ⟨by omega, rfl, rfl, rfl⟩
  · rwa [defaultColour_eq_unpack8, defaultColour_eq_unpack8] at h

end Sys2Proof.Proofs
end

section
/-! Runs of commands that the host presents one after another: a step of such a run, the run of none in `HALT`, and
colours appended to the palette one by one. -/

namespace Sys2Proof.Machine

/-! ## Commands at the port -/

theorem runEvent_command (i : Instr) (s : State) : runEvent (command i) s = exec i s :=
  runWord_of_ok (decode_encode i)

theorem runEvents_command {i : Instr} {s t : State} (h : exec i s = .next t) (es : List HostEvent) :
    runEvents (command i :: es) s = runEvents es t :=
  runEvents_cons_next ((runEvent_command i s).trans h)

theorem exec_of_halt {s : State} (h : s.phase = .halt) (i : Instr) : exec i s = .next s := by
  obtain ⟨body, hb⟩ := exec_eq_inPhase i s
  exact hb.trans (inPhase_of_halt h)

/-- A run of commands from `HALT` ends where it began (60_exceptions.md R165). -/
theorem runEvents_of_halt {s : State} (h : s.phase = .halt) (is : List Instr) :
    runEvents (is.map command) s = .next s := by
  induction is with
  | nil => rfl
  | cons i is ih => exact (runEvents_command (exec_of_halt h i) _).trans ih

/-! ## Appending colours -/

/-- `Appended s cs t`: the colours `cs` have been stored at `COUNT` and after it, the entries below read as before, and
but for the loader's position and its stashed byte nothing else has changed. -/
structure Appended (s : State) (cs : List Colour) (t : State) : Prop where
  count : t.count.toNat = s.count.toNat + cs.length
  read : ∀ i : Nat, i < cs.length → t.pal.read (s.count.toNat + i) = cs[i]?
  below : ∀ a : Nat, a < s.count.toNat → t.pal.read a = s.pal.read a
  rest : t = { s with pal := t.pal, count := t.count, lds := t.lds, ldp := t.ldp }

theorem Appended.phase {s t : State} {cs : List Colour} (h : Appended s cs t) : t.phase = s.phase := by
  rw [h.rest]

theorem Appended.err {s t : State} {cs : List Colour} (h : Appended s cs t) : t.err = s.err := by
  rw [h.rest]

theorem Appended.trans {s t : State} {cs : List Colour} (h : Appended s cs t) : t.trans = s.trans := by
  rw [h.rest]

theorem Appended.decl {s t : State} {cs : List Colour} (h : Appended s cs t) : t.decl = s.decl := by
  rw [h.rest]

theorem Appended.out {s t : State} {cs : List Colour} (h : Appended s cs t) : t.out = s.out := by
  rw [h.rest]

/-- From an empty palette on, the entries are the colours. -/
theorem Appended.read_of_empty {s t : State} {cs : List Colour} (h : Appended s cs t) (h0 : s.count = 0#9) (i : Nat)
    (hi : i < cs.length) : t.pal.read i = cs[i]? := by
  have hread := h.read i hi
  rwa [h0, BitVec.toNat_ofNat, Nat.zero_mod, Nat.zero_add] at hread

theorem Appended.count_of_empty {s t : State} {cs : List Colour} (h : Appended s cs t) (h0 : s.count = 0#9) :
    t.count.toNat = cs.length := by
  rw [h.count, h0, BitVec.toNat_ofNat, Nat.zero_mod, Nat.zero_add]

theorem Appended.nil (s : State) : Appended s [] s := ⟨rfl, nofun, fun _ _ => rfl, rfl⟩

/-- One colour stored at `COUNT`. -/
theorem Appended.single {s : State} (c : Colour) (hc : s.count.toNat < 256) (l : LoadPos) (p : Byte) :
    Appended s [c]
      { s with pal := s.pal.write s.count.toNat c, count := s.count + 1#9, lds := l, ldp := p } where
  count := count_succ_toNat hc
  read i hi := by
    obtain rfl : i = 0 := Nat.lt_one_iff.mp hi
    exact PalRam.read_write_same ..
  below a ha := PalRam.read_write_other _ c (Nat.ne_of_lt ha)
  rest := rfl

theorem Appended.cons {s t u : State} {c : Colour} {cs : List Colour} (h : Appended s [c] t) (h' : Appended t cs u) :
    Appended s (c :: cs) u where
  count := by
    rw [h'.count, h.count, List.length_singleton, List.length_cons]; omega
  read i hi := by
    cases i with
    | zero =>
      have hbelow : s.count.toNat + 0 < t.count.toNat := by rw [h.count]; exact Nat.lt_succ_self _
      exact (h'.below _ hbelow).trans (h.read 0 Nat.zero_lt_one)
    | succ i =>
      have haddr : s.count.toNat + (i + 1) = t.count.toNat + i := by rw [h.count, List.length_singleton]; omega
      rw [haddr]
      exact h'.read i (Nat.lt_of_succ_lt_succ hi)
  below a ha := by
    have hbelow : a < t.count.toNat := by rw [h.count]; omega
    exact (h'.below a hbelow).trans (h.below a ha)
  rest := by
    rw [h'.rest, h.rest]

end Sys2Proof.Machine
end

section
/-! The NIP loader byte by byte (41_palette.md R114): what `DIN` does at each position. -/

namespace Sys2Proof.Machine

theorem exec_din {s : State} (hp : s.phase = .nipLoad) (b : Byte) : exec (.din b) s = loadByte b s :=
  exec_of_phase (i := .din b) hp rfl

/-- A byte that completes a colour stores it. -/
theorem exec_din_colour {s : State} {b : Byte} {c : Colour} (hp : s.phase = .nipLoad) (hc : s.count.toNat < 256)
    (hlds : s.lds = .packed ∧ s.ldExt = false ∧ c = unpack8 b ∨ s.lds = .extension ∧ c = unpack9 s.ldp b) :
    exec (.din b) s = .next (stored c s) := by
  have hload : loadByte b s = appendColour c { s with lds := afterColour s } := by
    rcases hlds with ⟨hl, hx, rfl⟩ | ⟨hl, rfl⟩
    · simp [loadByte, hl, hx]
    · simp [loadByte, hl]
  rw [exec_din hp, hload]
  exact appendColour_of_lt hc

/-- The first byte of a colour of an extended stream is stashed. -/
theorem exec_din_packed {s : State} (hp : s.phase = .nipLoad) (hl : s.lds = .packed) (hx : s.ldExt = true)
    (b : Byte) : exec (.din b) s = .next { s with ldp := b, lds := .extension } := by
  simp [exec_din hp, loadByte, hl, hx]

/-- A wrong tag ends the load at its fourth byte. -/
theorem exec_din_wrongTag {s : State} {b : Byte} (hp : s.phase = .nipLoad) (hl : s.lds = .tag3)
    (hbad : (s.tagOk && b == 0x30#8) = false) :
    exec (.din b) s = .next { s with tagOk := false, lds := .tag0, phase := .idle } := by
  simp [exec_din hp, loadByte, hl, hbad]

theorem countOfByte_toNat_eq (b : Byte) : (countOfByte b).toNat = if b.toNat = 0 then 256 else b.toNat := by
  have hzero : b = 0#8 ↔ b.toNat = 0 := by simp [← BitVec.toNat_inj]
  have hlt := b.isLt
  simp only [countOfByte, hzero]
  split
  · rfl
  · simp only [BitVec.toNat_setWidth]; omega

end Sys2Proof.Machine

namespace Sys2Proof.Proofs

open Sys2Proof.Machine

/-- Settles O34: `DIN` is the case list of R114, read at each position. -/
theorem dinReadsHeaderAndTrailer : Obligations.DinReadsHeaderAndTrailer := by
  intro b s
  refine ⟨fun hp => ?_, decode_encode (.din b), commandOutsideItsPhaseRaisesSequenceError (.din b) s,
    parameterErrorOnReserved (.din b) rfl s⟩
  refine ⟨?tag0, ?tag1, ?tag2, ?tag3, ?wrongTag, ?count, ?flags, ?trailer⟩
  case tag3 =>
    rintro hl hok rfl
    simp [exec_din hp, loadByte, hl, hok]
  case wrongTag =>
    intro hl hbad
    exact exec_din_wrongTag hp hl (by simpa using hbad)
  case count =>
    intro hl
    rw [← countOfByte_toNat_eq, BitVec.ofNat_toNat, BitVec.setWidth_eq]
    simp only [exec_din hp, loadByte, hl]
  case flags | trailer =>
    intro hl
    simp only [exec_din hp, loadByte, hl]
  case tag0 | tag1 | tag2 =>
    intro hl
    simp only [exec_din hp, loadByte, hl]
    rfl

/-- Settles O35: the colour is stored at `COUNT`, where a read after the write gives it and any other read what it
gave before. -/
theorem dinReadsColours : Obligations.DinReadsColours := by
  intro b s hp
  refine ⟨fun hl hx => exec_din_packed hp hl hx b, fun hl hx hc => ?_, fun hl hc => ?_⟩
  · exact ⟨_, PalRam.read_write_same .., fun a ha => PalRam.read_write_other _ _ ha,
      exec_din_colour hp hc (.inl ⟨hl, hx, rfl⟩)⟩
  · exact ⟨_, PalRam.read_write_same .., fun a ha => PalRam.read_write_other _ _ ha,
      exec_din_colour hp hc (.inr ⟨hl, rfl⟩)⟩

end Sys2Proof.Proofs
end

section
/-! A NIP record taken apart (30_encoding.md R75 to R78): the bytes of its colours, the record they stand in, what
`nip_decode` reads of it and what `nip_encode` writes. -/

namespace Sys2Proof.Machine

open Sys2Proof.Claims

/-! ## The colour section -/

/-- `ColourSection x bs cs`: the bytes `bs` are the colours `cs`, one byte each, or two each in an extended stream. -/
inductive ColourSection : Bool → List Byte → List Colour → Prop
  | nil (x : Bool) : ColourSection x [] []
  | short (p : Byte) {bs : List Byte} {cs : List Colour} (h : ColourSection false bs cs) :
      ColourSection false (p :: bs) (unpack8 p :: cs)
  | long (p e : Byte) {bs : List Byte} {cs : List Colour} (h : ColourSection true bs cs) :
      ColourSection true (p :: e :: bs) (unpack9 p e :: cs)

theorem ColourSection.length_eq {x : Bool} {bs : List Byte} {cs : List Colour} (h : ColourSection x bs cs) :
    bs.length = cs.length * if x then 2 else 1 := by
  induction h with
  | nil => simp
  | short p h ih => simpa using ih
  | long p e h ih => simp only [List.length_cons, ih, if_true]; omega

/-- What has been read began with a colour section. -/
theorem colourSection_of_decodeColours {x : Bool} {n : Nat} {bs after : List Byte} {cs : List Colour}
    (h : decodeColours x n bs = some (cs, after)) :
    ∃ used, bs = used ++ after ∧ ColourSection x used cs ∧ cs.length = n := by
  induction n generalizing bs cs with
  | zero =>
    cases h
    exact ⟨[], rfl, .nil x, rfl⟩
  | succ n ih =>
    unfold decodeColours at h
    split at h
    case h_1 p rest =>
      split at h
      case h_1 cs' after' hrest =>
        cases h
        obtain ⟨used, rfl, hsec, hlen⟩ := ih hrest
        exact ⟨p :: used, rfl, .short p hsec, congrArg (· + 1) hlen⟩
      case h_2 => cases h
    case h_2 p e rest =>
      split at h
      case h_1 cs' after' hrest =>
        cases h
        obtain ⟨used, rfl, hsec, hlen⟩ := ih hrest
        exact ⟨p :: e :: used, rfl, .long p e hsec, congrArg (· + 1) hlen⟩
      case h_2 => cases h
    case h_3 => cases h

/-! ## The record -/

/-- The bytes of a NIP record: tag, count byte, flags byte, colour section, trailing byte (30_encoding.md R75). -/
def nipRecord (c f : Byte) (bs : List Byte) (last : Byte) : List Byte :=
  nipTag ++ c :: f :: (bs ++ [last])

theorem take_tag_nipRecord (c f : Byte) (bs : List Byte) (last : Byte) (tail : List Byte) :
    (nipRecord c f bs last ++ tail).take 4 = nipTag := rfl

/-- From its seventh byte on a stream that begins with a record is the colour section and the trailing byte. -/
theorem nipRecord_getD_add_six (c f : Byte) (bs : List Byte) (last : Byte) (tail : List Byte) (j : Nat) :
    (nipRecord c f bs last ++ tail).getD (j + 6) 0 = (bs ++ last :: tail).getD j 0 := by
  simp [nipRecord, nipTag]

/-- `IsRecord c f bs cs`: the colour section `bs` has as many colours as the count byte declares, in the mode of the
flags byte, and they are `cs`. -/
structure IsRecord (c f : Byte) (bs : List Byte) (cs : List Colour) : Prop where
  colours : ColourSection (f.getLsbD 0) bs cs
  count : cs.length = (countOfByte c).toNat

/-- Every stream that `nip_decode` answers is a stream without the tag, or begins with a record. -/
theorem nipDecode_cases {bytes : List Byte} {p : NipPalette} (h : nipDecode bytes = some p) :
    (bytes.take 4 ≠ nipTag ∧ p = ⟨[], Config.transDefault⟩) ∨
    ∃ c f bs cs last tail, bytes = nipRecord c f bs last ++ tail ∧ IsRecord c f bs cs ∧ p = ⟨cs, last⟩ := by
  unfold nipDecode at h
  split at h
  case isTrue htag => exact .inl ⟨htag, (Option.some.inj h).symm⟩
  case isFalse htag =>
    refine .inr ?_
    have htag : bytes.take 4 = nipTag := not_not.mp htag
    split at h
    case h_1 c f rest hdrop =>
      split at h
      case h_1 cs last tail hcolours =>
        obtain ⟨bs, rfl, hsec, hcount⟩ := colourSection_of_decodeColours hcolours
        refine ⟨c, f, bs, cs, last, tail, ?_, ⟨hsec, hcount⟩, (Option.some.inj h).symm⟩
        rw [← List.take_append_drop 4 bytes, htag, hdrop]
        simp [nipRecord]
      case h_2 => cases h
    case h_2 => cases h

theorem nipRecord_length (c f : Byte) (bs : List Byte) (last : Byte) :
    (nipRecord c f bs last).length = 7 + bs.length := by
  simp only [nipRecord, nipTag, List.length_append, List.length_cons, List.length_nil]
  omega

theorem recordLength_of_isRecord {c f : Byte} {bs : List Byte} {cs : List Colour} (h : IsRecord c f bs cs)
    (last : Byte) (tail : List Byte) :
    recordLength (nipRecord c f bs last ++ tail) = (nipRecord c f bs last).length := by
  rw [nipRecord_length, h.colours.length_eq, h.count, countOfByte_toNat_eq]
  exact if_pos (take_tag_nipRecord ..)

/-- What the loader takes of a stream that begins with a record is the record. -/
theorem take_recordLength {c f : Byte} {bs : List Byte} {cs : List Colour} (h : IsRecord c f bs cs)
    (last : Byte) (tail : List Byte) :
    (nipRecord c f bs last ++ tail).take (recordLength (nipRecord c f bs last ++ tail)) = nipRecord c f bs last := by
  rw [recordLength_of_isRecord h, List.take_left']
  rfl

/-! ## What is written -/

theorem nipEncode_eq_nipRecord (x : Bool) (count : BitVec 9) (cs : List Colour) (last : Byte) :
    nipEncode x count cs last =
      nipRecord (count.setWidth 8) ((BitVec.ofBool x).setWidth 8) (cs.flatMap (colourBytes x)) last := by
  simp [nipEncode, nipRecord]

/-- The written bytes of a palette are the colour section of the colours that come back (41_palette.md R124). -/
theorem colourSection_flatMap (x : Bool) (cs : List Colour) :
    ColourSection x (cs.flatMap (colourBytes x)) (cs.map (reread x)) := by
  induction cs with
  | nil => exact .nil x
  | cons c cs ih =>
    cases x with
    | false =>
      have hc : reread false c = unpack8 (pack8 c) := (unpack8_pack8 c).symm
      rw [List.map_cons, hc]
      exact .short (pack8 c) ih
    | true =>
      have hc : reread true c = unpack9 (pack8 c) (extByte c) := (unpack9_pack8_extByte c).symm
      rw [List.map_cons, hc]
      exact .long (pack8 c) (extByte c) ih

/-- The count byte of a palette of 1 to 256 colours is read as that count. -/
theorem countOfByte_setWidth {n : BitVec 9} (h1 : 1 ≤ n.toNat) (h2 : n.toNat ≤ 256) :
    (countOfByte (n.setWidth 8)).toNat = n.toNat := by
  rw [countOfByte_toNat_eq, BitVec.toNat_setWidth]
  split <;> omega

@[simp] theorem flagsByte_bit0 (x : Bool) : ((BitVec.ofBool x).setWidth 8).getLsbD 0 = x := by
  cases x <;> rfl

/-- A written palette is a record. -/
theorem isRecord_of_written (x : Bool) {n : BitVec 9} {cs : List Colour} (h1 : 1 ≤ n.toNat) (h2 : n.toNat ≤ 256)
    (hlen : cs.length = n.toNat) :
    IsRecord (n.setWidth 8) ((BitVec.ofBool x).setWidth 8) (cs.flatMap (colourBytes x)) (cs.map (reread x)) where
  colours := by
    rw [flagsByte_bit0]; exact colourSection_flatMap x cs
  count := by
    rw [countOfByte_setWidth h1 h2, List.length_map, hlen]

end Sys2Proof.Machine

namespace Sys2Proof.Proofs

open Sys2Proof.Machine

/-- Settles O41: the record of R120, and the length of its colour section. -/
theorem nipEncodingBytes : Obligations.NipEncodingBytes := by
  intro x count cs last
  constructor
  · have hflags : (BitVec.ofBool x).setWidth 8 = if x then 1#8 else 0#8 := by cases x <;> rfl
    rw [nipEncode, hflags, List.flatMap_def, BitVec.ofNat_toNat]
    rfl
  · rw [nipEncode_eq_nipRecord, nipRecord_length, (colourSection_flatMap x cs).length_eq, List.length_map]
    split <;> omega

end Sys2Proof.Proofs
end

section
/-! Loading a NIP stream (41_palette.md R113 to R115, R124): the loader against `nip_decode`. -/

namespace Sys2Proof.Machine

/-- One `DIN` a byte. -/
def dinEvents (bytes : List Byte) : List HostEvent := bytes.map fun b => command (.din b)

theorem dinEvents_append (bs bs' : List Byte) : dinEvents (bs ++ bs') = dinEvents bs ++ dinEvents bs' :=
  List.map_append

theorem runEvents_din {s t : State} {b : Byte} (h : exec (.din b) s = .next t) (bs : List Byte) :
    runEvents (dinEvents (b :: bs)) s = runEvents (dinEvents bs) t :=
  runEvents_command h _

/-! ## The colours -/

/-- The loader has `n` more colours to come, in the mode `x`, and then the trailing byte. -/
structure AwaitsColours (x : Bool) (n : Nat) (s : State) : Prop where
  phase : s.phase = .nipLoad
  ldExt : s.ldExt = x
  lds : s.lds = if n = 0 then .trailer else .packed
  count : s.count.toNat + n = s.decl.toNat
  decl_le : s.decl.toNat ≤ 256

theorem AwaitsColours.count_lt {x : Bool} {n : Nat} {s : State} (h : AwaitsColours x (n + 1) s) :
    s.count.toNat < 256 := by
  have hcount := h.count
  have hdecl := h.decl_le
  omega

/-- A colour stored, whatever the position and the stashed byte: one colour fewer to come. -/
theorem AwaitsColours.stored {x : Bool} {n : Nat} {s : State} (h : AwaitsColours x (n + 1) s) (c : Colour)
    (l : LoadPos) (p : Byte) : AwaitsColours x n (stored c { s with lds := l, ldp := p }) where
  phase := h.phase
  ldExt := h.ldExt
  lds := by
    have hlast : s.count.toNat + 1 = s.decl.toNat ↔ n = 0 := by
      have hcount := h.count
      omega
    simp only [Machine.stored, afterColour, hlast]
  count := by
    have hcount := h.count
    have hsucc := count_succ_toNat h.count_lt
    simp only [Machine.stored]
    omega
  decl_le := h.decl_le

/-- The loader appends the colours of a colour section as they stand there. -/
theorem ColourSection.load {x : Bool} {bs : List Byte} {cs : List Colour} (h : ColourSection x bs cs) {s : State}
    (hs : AwaitsColours x cs.length s) :
    ∃ t, runEvents (dinEvents bs) s = .next t ∧ Appended s cs t ∧ AwaitsColours x 0 t := by
  induction h generalizing s with
  | nil => exact ⟨s, rfl, .nil s, hs⟩
  | short p h ih =>
    have hc := hs.count_lt
    have hdin : exec (.din p) s = .next (stored (unpack8 p) s) :=
      exec_din_colour hs.phase hc (.inl ⟨hs.lds, hs.ldExt, rfl⟩)
    obtain ⟨t, hrun, happ, ht⟩ := ih (hs.stored (unpack8 p) s.lds s.ldp)
    exact ⟨t, (runEvents_din hdin _).trans hrun, (Appended.single _ hc _ _).cons happ, ht⟩
  | long p e h ih =>
    have hc := hs.count_lt
    have hpacked : exec (.din p) s = .next { s with lds := .extension, ldp := p } :=
      exec_din_packed hs.phase hs.lds hs.ldExt p
    have hext : exec (.din e) { s with lds := .extension, ldp := p } =
        .next (stored (unpack9 p e) { s with lds := .extension, ldp := p }) :=
      exec_din_colour hs.phase hc (.inr ⟨rfl, rfl⟩)
    obtain ⟨t, hrun, happ, ht⟩ := ih (hs.stored (unpack9 p e) .extension p)
    exact ⟨t, ((runEvents_din hpacked _).trans (runEvents_din hext _)).trans hrun,
      (Appended.single _ hc _ _).cons happ, ht⟩

/-! ## The whole stream -/

/-- `Loaded s p t`: `t` holds the palette `p`, with no fault and nothing emitted since `s`. -/
structure Loaded (s : State) (p : NipPalette) (t : State) : Prop where
  count : t.count.toNat = p.colours.length
  trans : t.trans = p.trans
  read : ∀ i : Nat, i < p.colours.length → t.pal.read i = p.colours[i]?
  err : t.err = s.err
  out : t.out = s.out

/-- What `PLDNIP` leaves (R113). -/
def loadOpened (s : State) : State :=
  { s with
    count := 0, trans := 0xE3, decl := 0, lds := .tag0, tagOk := false, ldExt := false, ldp := 0
    nipFlags := 0, phase := .nipLoad }

theorem exec_pldnip {s : State} (hp : s.phase = .idle) : exec .pldnip s = .next (loadOpened s) :=
  exec_of_phase (i := .pldnip) hp rfl

theorem runEvents_nipin {s : State} (hp : s.phase = .idle) (bytes : List Byte) :
    runEvents (expandPseudo (.nipin bytes)) s = runEvents (dinEvents bytes) (loadOpened s) :=
  runEvents_command (exec_pldnip hp) _

/-- What the six header bytes leave: the loader ready for the first colour. -/
def headerRead (c f : Byte) (s : State) : State :=
  { loadOpened s with
    tagOk := true, decl := countOfByte c, nipFlags := f, ldExt := f.getLsbD 0, lds := .packed }

theorem load_header (c f : Byte) (s : State) :
    runEvents (dinEvents (nipTag ++ [c, f])) (loadOpened s) = .next (headerRead c f s) := by
  simp [dinEvents, nipTag, runEvents, runEvent_command, exec_din, loadByte, loadOpened, headerRead]

theorem IsRecord.awaitsColours {c f : Byte} {bs : List Byte} {cs : List Colour} (h : IsRecord c f bs cs) (s : State) :
    AwaitsColours (f.getLsbD 0) cs.length (headerRead c f s) where
  phase := rfl
  ldExt := rfl
  lds := by
    obtain ⟨hpos, -⟩ := countOfByte_toNat c
    have hcs : cs.length ≠ 0 := by rw [h.count]; omega
    exact (if_neg hcs).symm
  count := (Nat.zero_add _).trans h.count
  decl_le := (countOfByte_toNat c).2

/-- A record loads as the palette it holds, and the load closes at its last byte. -/
theorem IsRecord.load {c f : Byte} {bs : List Byte} {cs : List Colour} (h : IsRecord c f bs cs) (last : Byte)
    {s : State} (hp : s.phase = .idle) :
    ∃ t, runEvents (expandPseudo (.nipin (nipRecord c f bs last))) s = .next t ∧ Loaded s ⟨cs, last⟩ t ∧
      t.phase = .idle := by
  obtain ⟨u, hrun, happ, hu⟩ := h.colours.load (h.awaitsColours s)
  have hlast : exec (.din last) u = .next { u with trans := last, lds := .tag0, phase := .idle } := by
    simp [exec_din hu.phase, loadByte, hu.lds]
  refine ⟨{ u with trans := last, lds := .tag0, phase := .idle }, ?_,
    ⟨happ.count_of_empty rfl, rfl, happ.read_of_empty rfl, happ.err, happ.out⟩, rfl⟩
  have hbytes : nipRecord c f bs last = (nipTag ++ [c, f]) ++ (bs ++ [last]) := by simp [nipRecord]
  rw [runEvents_nipin hp, hbytes, dinEvents_append, runEvents_append (load_header c f s), dinEvents_append,
    runEvents_append hrun]
  exact runEvents_din hlast []

/-- The first three tag bytes are compared one by one. -/
theorem load_three_bytes (a b c : Byte) (s : State) :
    runEvents (dinEvents [a, b, c]) (loadOpened s) =
      .next { loadOpened s with tagOk := (a == 0x4E#8 && b == 0x49#8) && c == 0x50#8, lds := .tag3 } := by
  simp [dinEvents, runEvents, runEvent_command, exec_din, loadByte, loadOpened]

/-- Fewer than four bytes move the loader's position and its tag check, nothing else. -/
theorem load_fewer_than_four {bytes : List Byte} (h : bytes.length < 4) (s : State) :
    ∃ ok l, runEvents (dinEvents bytes) (loadOpened s) = .next { loadOpened s with tagOk := ok, lds := l } := by
  match bytes with
  | [] => exact ⟨false, .tag0, rfl⟩
  | [a] =>
    exact ⟨a == 0x4E#8, .tag1, by
      simp [dinEvents, runEvents, runEvent_command, exec_din, loadByte, loadOpened]⟩
  | [a, b] =>
    exact ⟨a == 0x4E#8 && b == 0x49#8, .tag2, by
      simp [dinEvents, runEvents, runEvent_command, exec_din, loadByte, loadOpened]⟩
  | [a, b, c] => exact ⟨_, _, load_three_bytes a b c s⟩
  | _ :: _ :: _ :: _ :: rest => exact absurd h (by simp)

/-- Four bytes that are not the tag close the load. -/
theorem load_four_bytes {a b c d : Byte} (htag : [a, b, c, d] ≠ nipTag) (s : State) :
    runEvents (dinEvents [a, b, c, d]) (loadOpened s) =
      .next { loadOpened s with tagOk := false, lds := .tag0, phase := .idle } := by
  have hbad : (((a == 0x4E#8 && b == 0x49#8) && c == 0x50#8) && d == 0x30#8) = false := by
    simpa [nipTag, and_assoc] using htag
  rw [show [a, b, c, d] = [a, b, c] ++ [d] from rfl, dinEvents_append, runEvents_append (load_three_bytes a b c s)]
  exact runEvents_din (exec_din_wrongTag rfl rfl hbad) []

/-- A stream without the tag loads as the empty palette: four bytes close the load, fewer leave it open. -/
theorem load_wrongTag {bytes : List Byte} (htag : bytes.take 4 ≠ nipTag) {s : State} (hp : s.phase = .idle) :
    ∃ t, runEvents (expandPseudo (.nipin (bytes.take 4))) s = .next t ∧ Loaded s ⟨[], Config.transDefault⟩ t ∧
      (4 ≤ bytes.length → t.phase = .idle) := by
  rw [runEvents_nipin hp]
  by_cases hlen : 4 ≤ bytes.length
  · match bytes with
    | a :: b :: c :: d :: rest => exact ⟨_, load_four_bytes htag s, ⟨rfl, rfl, nofun, rfl, rfl⟩, fun _ => rfl⟩
  · have hlt : bytes.length < 4 := Nat.not_le.mp hlen
    obtain ⟨ok, l, hrun⟩ := load_fewer_than_four hlt s
    rw [List.take_of_length_le hlt.le]
    exact ⟨_, hrun, ⟨rfl, rfl, nofun, rfl, rfl⟩, fun h => absurd h hlen⟩

end Sys2Proof.Machine

namespace Sys2Proof.Proofs

open Sys2Proof.Machine Sys2Proof.Claims

/-- Settles O33: `PLDNIP` is the phase check around the opening of a load. -/
theorem pldnipOpensLoad : Obligations.PldnipOpensLoad := fun s =>
  ⟨exec_pldnip, decode_encode .pldnip, commandOutsideItsPhaseRaisesSequenceError .pldnip s,
    parameterErrorOnReserved .pldnip rfl s⟩

/-- Settles O36: a stream that `nip_decode` answers has not the tag, or begins with a record, whose colours the loader
appends one by one. -/
theorem loaderRefinesNipDecode : Obligations.LoaderRefinesNipDecode := by
  intro bytes p s hp hdec
  rcases nipDecode_cases hdec with ⟨htag, rfl⟩ | ⟨c, f, bs, cs, last, tail, rfl, hrec, rfl⟩
  · have hlen : recordLength bytes = 4 := if_neg htag
    rw [hlen]
    obtain ⟨t, hrun, hload, hidle⟩ := load_wrongTag htag hp
    exact ⟨t, hrun, hload.count, hload.trans, hload.read, hload.err, hload.out, hidle⟩
  · rw [take_recordLength hrec]
    obtain ⟨t, hrun, hload, hidle⟩ := hrec.load last hp
    exact ⟨t, hrun, hload.count, hload.trans, hload.read, hload.err, hload.out, fun _ => hidle⟩

end Sys2Proof.Proofs
end

section
/-! Writing the palette and reading it (41_palette.md R121, R122, R124, R125). -/

namespace Sys2Proof.Machine

/-! ## What the commands emit and deliver -/

/-- With a written palette of at least one colour `PSTNIP` emits its record. -/
theorem exec_pstnip {s : State} (hp : s.phase = .idle) (hc : s.count ≠ 0#9) (hw : s.PaletteWritten) (x : Bool) :
    ∃ cs : List Colour, cs.length = s.count.toNat ∧ (∀ i : Nat, i < s.count.toNat → s.pal.read i = cs[i]?) ∧
      exec (.pstnip x) s = .next (s.emit (nipEncode x s.count cs s.trans)) := by
  obtain ⟨cs, hcs⟩ := paletteColours_exists hw
  obtain ⟨hlen, hread⟩ := (PalRam.entriesFrom_eq_some s.pal 0 s.count.toNat cs).mp hcs
  refine ⟨cs, hlen, fun i hi => (congrArg _ (Nat.zero_add i)).symm.trans (hread i hi), ?_⟩
  rw [exec_of_phase (i := .pstnip x) hp rfl, needPalette_of_ne hc, hcs, reading_some]

theorem colourWord_eq_ofNat (c : Colour) :
    colourWord c = BitVec.ofNat 16 (64 * c.r.toNat + 8 * c.g.toNat + c.b.toNat) := by
  apply BitVec.eq_of_toNat_eq
  rw [colourWord, BitVec.toNat_setWidth, toNat_append_add, toNat_append_add, BitVec.toNat_ofNat]
  congr 1
  ring

/-! ## A loaded record written back (R125) -/

/-- A byte of a colour section, at its place there, as it is written back: of an extension byte bit 0 alone. -/
def writtenBack (x : Bool) (j : Nat) (b : Byte) : Byte := if x = true ∧ j % 2 = 1 then b &&& 1 else b

theorem writtenBack_false (j : Nat) : writtenBack false j = id := by
  funext b
  simp [writtenBack]

theorem writtenBack_add_two (x : Bool) (j : Nat) : writtenBack x (j + 2) = writtenBack x j := by
  funext b
  simp [writtenBack]

theorem ColourSection.flatMap_getElem? {x : Bool} {bs : List Byte} {cs : List Colour} (h : ColourSection x bs cs)
    (j : Nat) : (cs.flatMap (colourBytes x))[j]? = bs[j]?.map (writtenBack x j) := by
  induction h generalizing j with
  | nil => rfl
  | short p h ih =>
    cases j with
    | zero => simp [colourBytes, writtenBack_false, pack8_unpack8]
    | succ j => simpa [colourBytes, writtenBack_false] using ih j
  | long p e h ih =>
    match j with
    | 0 => simp [colourBytes, writtenBack, pack8_unpack9]
    | 1 => simp [colourBytes, writtenBack, extByte_unpack9]
    | j + 2 => simpa [colourBytes, writtenBack_add_two] using ih j

theorem ColourSection.flatMap_length {x : Bool} {bs : List Byte} {cs : List Colour} (h : ColourSection x bs cs) :
    (cs.flatMap (colourBytes x)).length = bs.length := by
  rw [(colourSection_flatMap x cs).length_eq, List.length_map, h.length_eq]

/-- The byte after a colour section is at an even place of an extended record. -/
theorem ColourSection.writtenBack_length {x : Bool} {bs : List Byte} {cs : List Colour} (h : ColourSection x bs cs)
    (b : Byte) : writtenBack x bs.length b = b := by
  cases x with
  | false => exact congrFun (writtenBack_false _) b
  | true => simp [writtenBack, h.length_eq]

theorem setWidth_countOfByte (c : Byte) : (countOfByte c).setWidth 8 = c := by
  apply BitVec.eq_of_toNat_eq
  rw [BitVec.toNat_setWidth, countOfByte_toNat_eq]
  have hlt := c.isLt
  split <;> omega

theorem flagsByte_of_bit0 (f : Byte) : (BitVec.ofBool (f.getLsbD 0)).setWidth 8 = f &&& 1 := by
  apply BitVec.eq_of_toNat_eq
  have hand : (f &&& 1).toNat = f.toNat % 2 := Nat.and_one_is_mod f.toNat
  rw [hand, BitVec.toNat_setWidth, BitVec.toNat_ofBool, BitVec.getLsbD, Nat.testBit_zero]
  rcases Nat.mod_two_eq_zero_or_one f.toNat with h | h <;> simp [h]

/-- The record that the decoded palette is written as. -/
theorem IsRecord.nipEncode_eq {c f : Byte} {bs : List Byte} {cs : List Colour} (h : IsRecord c f bs cs)
    (last : Byte) :
    nipEncode (f.getLsbD 0) (BitVec.ofNat 9 cs.length) cs last =
      nipRecord c (f &&& 1) (cs.flatMap (colourBytes (f.getLsbD 0))) last := by
  rw [nipEncode_eq_nipRecord, h.count, BitVec.ofNat_toNat, BitVec.setWidth_eq, setWidth_countOfByte,
    flagsByte_of_bit0]

/-- From its seventh byte on a record is its colour section and its trailing byte. -/
theorem nipRecord_getElem?_add_six (c f : Byte) (bs : List Byte) (last : Byte) (j : Nat) :
    (nipRecord c f bs last)[j + 6]? = (bs ++ [last])[j]? := rfl

theorem IsRecord.writtenBack_getElem? {c f : Byte} {bs : List Byte} {cs : List Colour} (h : IsRecord c f bs cs)
    (last : Byte) (tail : List Byte) {j : Nat} (hj : j < 1 + bs.length) :
    (cs.flatMap (colourBytes (f.getLsbD 0)) ++ [last])[j]? =
      some (writtenBack (f.getLsbD 0) j ((bs ++ last :: tail).getD j 0)) := by
  have hlen := h.colours.flatMap_length
  by_cases hjlt : j < bs.length
  · rw [List.getElem?_append_left (hlen ▸ hjlt), h.colours.flatMap_getElem?, List.getElem?_eq_getElem hjlt,
      List.getD_append _ _ _ _ hjlt, List.getD_eq_getElem _ _ hjlt]
    rfl
  · obtain rfl : j = bs.length := by omega
    rw [h.colours.writtenBack_length, ← hlen, List.getElem?_concat_length, hlen, List.getD_append_right _ _ _ _ le_rfl,
      Nat.sub_self]
    rfl

end Sys2Proof.Machine

namespace Sys2Proof.Proofs

open Sys2Proof.Machine Sys2Proof.Claims

/-- Settles O42: the emptiness check comes before the read of the entries, which answers over a written palette. -/
theorem pstnipEmitsNipStream : Obligations.PstnipEmitsNipStream := by
  intro x s
  refine ⟨fun hp hc => ?_, fun hp hc hw => exec_pstnip hp hc hw x, ?_,
    commandOutsideItsPhaseRaisesSequenceError (.pstnip x) s, parameterErrorOnReserved (.pstnip x) rfl s⟩
  · exact (exec_of_phase (i := .pstnip x) hp rfl).trans (needPalette_of_zero hc)
  · exact decode_encode (.pstnip x)

/-- Settles O43: the range check comes before the read of the entry. -/
theorem pgetReadsEntryInRange : Obligations.PgetReadsEntryInRange := by
  intro k s
  refine ⟨fun hp hk => ?_, fun c hp hk hread => ?_, decode_encode (.pget k),
    commandOutsideItsPhaseRaisesSequenceError (.pget k) s, parameterErrorOnReserved (.pget k) rfl s⟩
  · exact (exec_of_phase (i := .pget k) hp rfl).trans (if_pos hk)
  · rw [exec_of_phase (i := .pget k) hp rfl, if_neg (Nat.not_le.mpr hk), hread, reading_some, colourWord_eq_ofNat]
    rfl

/-- Settles O45: what `PSTNIP` emits is a record of the colours that come back, which the loader appends one by one. -/
theorem writtenPaletteLoadsBack : Obligations.WrittenPaletteLoadsBack := by
  intro x s hp h1 h2 hw
  obtain ⟨cs, hlen, hread, hexec⟩ := exec_pstnip hp (count_ne_zero_of_lt h1) hw x
  have hrec := isRecord_of_written x h1 h2 hlen
  obtain ⟨u, hrun, hload, hidle⟩ := hrec.load s.trans (s := s.emit (nipEncode x s.count cs s.trans)) hp
  rw [← nipEncode_eq_nipRecord] at hrun
  have hcount : u.count = s.count := BitVec.eq_of_toNat_eq (by rw [hload.count, List.length_map, hlen])
  refine ⟨_, _, u, hexec, rfl, hrun, hidle, hload.err, hload.out, hcount, hload.trans, fun i c hi hc => ?_⟩
  have hci : cs[i]? = some c := (hread i hi).symm.trans hc
  rw [hload.read i (by rw [List.length_map, hlen]; exact hi), List.getElem?_map, hci]
  rfl

/-- Settles O46: the stream begins with a record, which is written back byte by byte: tag and count as they are, bit 0
of the flags, then the colour section and the trailing byte. -/
theorem loadedStreamWritesBack : Obligations.LoadedStreamWritesBack := by
  intro bytes p x htag hdec hx
  rcases nipDecode_cases hdec with ⟨hne, -⟩ | ⟨c, f, bs, cs, last, tail, rfl, hrec, rfl⟩
  · exact absurd htag hne
  obtain rfl : x = f.getLsbD 0 := hx
  rw [recordLength_of_isRecord hrec, hrec.nipEncode_eq, nipRecord_length, nipRecord_length,
    hrec.colours.flatMap_length]
  refine ⟨rfl, fun i hi => ?_⟩
  match i with
  | 0 | 1 | 2 | 3 | 4 => simp [nipRecord, nipTag]
  | 5 => rfl
  | j + 6 =>
    have hflags : j + 6 ≠ 5 := by omega
    have hplace : 7 ≤ j + 6 ∧ (j + 6) % 2 = 1 ↔ j % 2 = 1 := by omega
    rw [nipRecord_getElem?_add_six, hrec.writtenBack_getElem? last tail (by omega), nipRecord_getD_add_six]
    simp only [hflags, hplace, false_or, writtenBack]

end Sys2Proof.Proofs
end

section
/-! The other palette commands (41_palette.md R110, R112, R116 to R118, R123). -/

namespace Sys2Proof.Machine

/-- With room for it a colour that is not one too many is stored at `COUNT`. -/
theorem exec_padd {s : State} (hp : s.phase = .textImport) (hne : s.count ≠ s.decl) (hc : s.count.toNat < 256)
    (r g b : Byte) : exec (.padd r g b) s =
      .next { s with pal := s.pal.write s.count.toNat (snapColour r g b), count := s.count + 1#9 } := by
  rw [exec_of_phase (i := .padd r g b) hp rfl, if_neg hne, appendColour_of_lt hc]

theorem exec_padd_full {s : State} (hp : s.phase = .textImport) (heq : s.count = s.decl) (r g b : Byte) :
    exec (.padd r g b) s = .next (s.raise .sequenceError) :=
  (exec_of_phase (i := .padd r g b) hp rfl).trans (if_pos heq)

theorem exec_pend {s : State} (hp : s.phase = .textImport) :
    exec .pend s = .next { s with count := if s.count = s.decl then s.count else 0#9, phase := .idle } :=
  exec_of_phase (i := .pend) hp rfl

/-- What `PBEGIN` leaves (R116). -/
def importOpened (n : BitVec 16) (s : State) : State :=
  { s with count := 0, trans := 0xE3, decl := n.setWidth 9, phase := .textImport }

theorem exec_pbegin {n : BitVec 16} {s : State} (hp : s.phase = .idle) (hn : n.toNat ≤ 256) :
    exec (.pbegin n) s = .next (importOpened n s) :=
  (exec_of_phase (i := .pbegin n) hp rfl).trans (if_neg (Nat.not_lt.mpr hn))

/-! ## A whole import -/

/-- The command that appends a triple. -/
def paddOf (t : Byte × Byte × Byte) : Instr := .padd t.1 t.2.1 t.2.2

def snapTriple (t : Byte × Byte × Byte) : Colour := snapColour t.1 t.2.1 t.2.2

/-- Triples up to the declared number are appended one by one. -/
theorem import_appends_triples (ts : List (Byte × Byte × Byte)) {s : State} (hp : s.phase = .textImport)
    (hle : s.count.toNat + ts.length ≤ s.decl.toNat) (hdecl : s.decl.toNat ≤ 256) :
    ∃ t, runEvents ((ts.map paddOf).map command) s = .next t ∧ Appended s (ts.map snapTriple) t := by
  induction ts generalizing s with
  | nil => exact ⟨s, rfl, .nil s⟩
  | cons p ts ih =>
    rw [List.length_cons] at hle
    have hlt : s.count.toNat < s.decl.toNat := by omega
    have hc : s.count.toNat < 256 := by omega
    have hne : s.count ≠ s.decl := fun he => Nat.ne_of_lt hlt (congrArg _ he)
    have hroom : (s.count + 1#9).toNat + ts.length ≤ s.decl.toNat := by rw [count_succ_toNat hc]; omega
    obtain ⟨t, hrun, happ⟩ := ih (s := { s with
      pal := s.pal.write s.count.toNat (snapTriple p), count := s.count + 1#9 }) hp hroom hdecl
    exact ⟨t, (runEvents_command (exec_padd hp hne hc _ _ _) _).trans hrun,
      (Appended.single (snapTriple p) hc s.lds s.ldp).cons happ⟩

theorem runEvents_ptext {n : BitVec 16} {s : State} (hp : s.phase = .idle) (hn : n.toNat ≤ 256)
    (ts : List (Byte × Byte × Byte)) :
    runEvents (expandPseudo (.ptext n ts)) s =
      runEvents ((ts.map paddOf ++ [Instr.pend]).map command) (importOpened n s) := by
  rw [List.map_append, List.map_map]
  exact runEvents_command (exec_pbegin hp hn) _

/-- What the first `n` triples of an import leave. -/
theorem import_declared {n : BitVec 16} (hn : n.toNat ≤ 256) {ts : List (Byte × Byte × Byte)}
    (hle : ts.length ≤ n.toNat) (s : State) :
    ∃ t, runEvents ((ts.map paddOf).map command) (importOpened n s) = .next t ∧
      Appended (importOpened n s) (ts.map snapTriple) t ∧ t.count.toNat = ts.length ∧ t.decl.toNat = n.toNat := by
  have hdecl : (importOpened n s).decl.toNat = n.toNat := pbegin_decl_toNat hn
  have hroom : (importOpened n s).count.toNat + ts.length ≤ (importOpened n s).decl.toNat := by
    rw [hdecl]; exact (Nat.zero_add _).trans_le hle
  obtain ⟨t, hrun, happ⟩ := import_appends_triples ts rfl hroom (hdecl.trans_le hn)
  refine ⟨t, hrun, happ, ?_, by rw [happ.decl, hdecl]⟩
  rw [happ.count_of_empty rfl, List.length_map]

/-- Up to the declared number of triples, the import closes; the palette is kept only with all of them. -/
theorem import_closes {n : BitVec 16} {s : State} (hp : s.phase = .idle) (hn : n.toNat ≤ 256)
    {ts : List (Byte × Byte × Byte)} (hle : ts.length ≤ n.toNat) :
    ∃ t, runEvents (expandPseudo (.ptext n ts)) s = .next t ∧ t.out = s.out ∧ t.phase = .idle ∧ t.err = s.err ∧
      t.trans = 0xE3 ∧ t.count.toNat = (if ts.length = n.toNat then ts.length else 0) ∧
      ∀ i : Nat, i < ts.length → t.pal.read i = (ts.map snapTriple)[i]? := by
  obtain ⟨t, hrun, happ, hcount, hdecl⟩ := import_declared hn hle s
  have hpend := exec_pend happ.phase
  rw [runEvents_ptext hp hn, List.map_append, runEvents_append hrun]
  refine ⟨{ t with count := if t.count = t.decl then t.count else 0#9, phase := .idle },
    runEvents_command hpend [], happ.out, rfl, happ.err, happ.trans, ?_,
    fun i hi => happ.read_of_empty rfl i (by rwa [List.length_map])⟩
  have hall : t.count = t.decl ↔ ts.length = n.toNat := by rw [← BitVec.toNat_inj, hcount, hdecl]
  simp only [hall, apply_ite BitVec.toNat, hcount]
  rfl

/-- One triple more than declared faults, and the rest of the import is ignored. -/
theorem import_overflows {n : BitVec 16} {s : State} (hp : s.phase = .idle) (hn : n.toNat ≤ 256)
    {ts : List (Byte × Byte × Byte)} (hlt : n.toNat < ts.length) :
    ∃ t, runEvents (expandPseudo (.ptext n ts)) s = .next t ∧ t.out = s.out ∧ t.phase = .halt ∧
      t.err = some .sequenceError := by
  have htake : (ts.take n.toNat).length = n.toNat := List.length_take_of_le hlt.le
  obtain ⟨t, hrun, happ, hcount, hdecl⟩ := import_declared hn htake.le s
  have hfull : t.count = t.decl := BitVec.eq_of_toNat_eq (by rw [hcount, hdecl, htake])
  have hsplit : ts.map paddOf ++ [Instr.pend] =
      (ts.take n.toNat).map paddOf ++ (paddOf ts[n.toNat] :: ((ts.drop (n.toNat + 1)).map paddOf ++ [.pend])) := by
    rw [← List.cons_append, ← List.map_cons, ← List.drop_eq_getElem_cons hlt, ← List.append_assoc, ← List.map_append,
      List.take_append_drop]
  have hfault : exec (paddOf ts[n.toNat]) t = .next (t.raise .sequenceError) := exec_padd_full happ.phase hfull _ _ _
  rw [runEvents_ptext hp hn, hsplit, List.map_append, runEvents_append hrun, List.map_cons, runEvents_command hfault]
  exact ⟨_, runEvents_of_halt rfl _, happ.out, rfl, rfl⟩

end Sys2Proof.Machine

namespace Sys2Proof.Proofs

open Sys2Proof.Machine

/-- Settles O20: in `IMAGE` the only command that completes is `IPIX`, which writes none of the palette. -/
theorem paletteFixedWhileImageOpen : Obligations.PaletteFixedWhileImageOpen := by
  intro i s t himage hr
  rcases exec_next hr with ⟨-, rfl⟩ | ⟨-, k, rfl⟩ | ⟨hp, hc⟩
  · exact ⟨rfl, rfl, rfl⟩
  · exact ⟨rfl, rfl, rfl⟩
  · have haccepted : acceptedIn i = .image := hp.symm.trans himage
    cases hc with
    | ipixByte | ipixHigh | ipixLow => simp
    | _ => cases haccepted

/-- Settles O32: `PDEF` is the phase check around the filled RAM, read entry by entry. -/
theorem pdefBuildsDefaultPalette : Obligations.PdefBuildsDefaultPalette := fun s =>
  ⟨fun hp => ⟨PalRam.fill defaultColour, exec_of_phase (i := .pdef) hp rfl,
      fun i hi => (PalRam.read_fill defaultColour i).trans (if_pos hi)⟩,
    decode_encode .pdef, commandOutsideItsPhaseRaisesSequenceError .pdef s, parameterErrorOnReserved .pdef rfl s⟩

/-- Settles O37: the check of the declared number comes before the writes. -/
theorem pbeginOpensImport : Obligations.PbeginOpensImport := by
  intro n s
  refine ⟨fun hp hn => ?_, fun hp hn => ?_, decode_encode (.pbegin n),
    commandOutsideItsPhaseRaisesSequenceError (.pbegin n) s, parameterErrorOnReserved (.pbegin n) rfl s⟩
  · exact (exec_of_phase (i := .pbegin n) hp rfl).trans (if_pos hn)
  · rw [exec_pbegin hp hn, BitVec.ofNat_toNat]
    rfl

/-- Settles O38: the check of the declared number comes before the write at `COUNT`, where a read gives the snapped
colour and any other read what it gave before. -/
theorem paddAppendsSnappedColour : Obligations.PaddAppendsSnappedColour := fun r g b s =>
  ⟨fun hp heq => exec_padd_full hp heq r g b,
    fun hp hne hc => ⟨_, PalRam.read_write_same .., fun _ ha => PalRam.read_write_other _ _ ha,
      exec_padd hp hne hc r g b⟩,
    decode_encode (.padd r g b), commandOutsideItsPhaseRaisesSequenceError (.padd r g b) s,
    parameterErrorOnReserved (.padd r g b) rfl s⟩

/-- Settles O39: the two cases of the comparison of `COUNT` with `DECL`. -/
theorem pendChecksDeclaredCount : Obligations.PendChecksDeclaredCount := by
  intro s
  refine ⟨fun hp heq => ?_, fun hp hne => ?_, decode_encode .pend,
    commandOutsideItsPhaseRaisesSequenceError .pend s, parameterErrorOnReserved .pend rfl s⟩
  · rw [exec_pend hp, if_pos heq]
  · rw [exec_pend hp, if_neg hne]
    rfl

/-- Settles O40: with at most the declared number of triples the import closes, with more it faults. -/
theorem textImportBuildsSnappedPalette : Obligations.TextImportBuildsSnappedPalette := by
  intro n ts s hp hn
  by_cases hle : ts.length ≤ n.toNat
  · obtain ⟨t, hrun, hout, hidle, herr, htrans, hcount, hread⟩ := import_closes hp hn hle
    refine ⟨t, hrun, hout, fun hall => ⟨hidle, herr, ?_, htrans, fun i r g b hi => ?_⟩,
      fun hfewer => ⟨hidle, herr, ?_, htrans⟩, fun hmore => absurd hle (Nat.not_le.mpr hmore)⟩
    · rw [hcount, if_pos hall, hall]
    · obtain ⟨hlt, -⟩ := List.getElem?_eq_some_iff.mp hi
      rw [hread i hlt, List.getElem?_map, hi]
      rfl
    · apply BitVec.eq_of_toNat_eq
      rw [hcount, if_neg hfewer.ne]
      rfl
  · have hlt : n.toNat < ts.length := Nat.not_le.mp hle
    obtain ⟨t, hrun, hout, hhalt, herr⟩ := import_overflows hp hn hlt
    exact ⟨t, hrun, hout, fun hall => absurd hall hlt.ne', fun hfewer => absurd hfewer.le hle,
      fun _ => ⟨hhalt, herr⟩⟩

/-- Settles O44: `TSET` is the phase check around one write of `TRANS`. -/
theorem tsetOverridesTransparency : Obligations.TsetOverridesTransparency := fun v s =>
  ⟨fun hp => exec_of_phase (i := .tset v) hp rfl, decode_encode (.tset v),
    commandOutsideItsPhaseRaisesSequenceError (.tset v) s, parameterErrorOnReserved (.tset v) rfl s⟩

end Sys2Proof.Proofs
end

section
/-! The index of a pixel and the commands that open an image (42_bitmap.md R140 to R142, R148). -/

namespace Sys2Proof.Machine

/-! ## The index of a pixel (R140) -/

/-- The lanes of a sample are the bytes it is put together from, alpha in the high byte (30_encoding.md R82). -/
theorem sample_lanes (r g b a : Byte) :
    sampleR (a ++ b ++ g ++ r) = r ∧ sampleG (a ++ b ++ g ++ r) = g ∧ sampleB (a ++ b ++ g ++ r) = b ∧
      sampleA (a ++ b ++ g ++ r) = a := by
  have hvalue : (a ++ b ++ g ++ r : Sample).toNat =
      ((a.toNat * 2 ^ 8 + b.toNat) * 2 ^ 8 + g.toNat) * 2 ^ 8 + r.toNat := by
    rw [toNat_append_add, toNat_append_add, toNat_append_add]
  refine ⟨?_, ?_, ?_, ?_⟩ <;> apply BitVec.eq_of_toNat_eq
  all_goals
    simp only [sampleR, sampleG, sampleB, sampleA, toNat_extract, hvalue]
    omega

theorem pixelIndex_of_opaque {p : Sample} (h : sampleA p = 255#8) (s : State) :
    pixelIndex s p = nearest s (sampleR p) (sampleG p) (sampleB p) :=
  if_neg (not_not.mpr h)

theorem pixelIndex_of_not_opaque {p : Sample} (h : sampleA p ≠ 255#8) (s : State) : pixelIndex s p = some s.trans :=
  if_pos h

/-! ## The opening commands (R141, R142) -/

theorem bit0_eq_decide {n : Nat} (x : BitVec n) : x.getLsbD 0 = decide (x.toNat % 2 = 1) := Nat.testBit_zero _

theorem le16_eq_ofNat (v : BitVec 16) : le16 v = [BitVec.ofNat 8 v.toNat, BitVec.ofNat 8 (v.toNat / 256)] := by
  have hlow : v.extractLsb' 0 8 = BitVec.ofNat 8 v.toNat := by
    apply BitVec.eq_of_toNat_eq
    rw [toNat_extract, BitVec.toNat_ofNat]; omega
  have hhigh : v.extractLsb' 8 8 = BitVec.ofNat 8 (v.toNat / 256) := by
    apply BitVec.eq_of_toNat_eq
    rw [toNat_extract, BitVec.toNat_ofNat]; omega
  rw [le16, hlow, hhigh]

/-- The header, byte by byte (30_encoding.md R79). -/
theorem nimHeader_eq (w h : BitVec 16) : nimHeader w h =
    [0x4E, 0x49, 0x4D, 0x30, BitVec.ofNat 8 w.toNat, BitVec.ofNat 8 (w.toNat / 256), BitVec.ofNat 8 h.toNat,
      BitVec.ofNat 8 (h.toNat / 256)] := by
  rw [nimHeader, le16_eq_ofNat, le16_eq_ofNat]
  rfl

section
variable {s : State} (hp : s.phase = .idle)
include hp

theorem exec_ibegin8 (hc : s.count ≠ 0#9) (w h : BitVec 16) :
    exec (.ibegin8 w h) s = .next (openImage false w h s) :=
  (exec_of_phase (i := .ibegin8 w h) hp rfl).trans (needPalette_of_ne hc)

/-- The checks of R142, in its order. -/
theorem exec_ibegin4 (hc : s.count ≠ 0#9) (w h : BitVec 16) :
    exec (.ibegin4 w h) s = .next
      (if 16 < s.count.toNat ∨ w.toNat % 2 = 1 then s.raise .constraintError else openImage true w h s) := by
  rw [exec_of_phase (i := .ibegin4 w h) hp rfl, needPalette_of_ne hc]
  simp only [bit0_eq_decide, decide_eq_true_eq, ite_or, apply_ite Host.Outcome.next]

/-- An opening command whose checks pass opens the image in its mode. -/
theorem exec_open {mode4 : Bool} {w : BitVec 16} (hc : s.count ≠ 0#9)
    (hm : mode4 = true → s.count.toNat ≤ 16 ∧ w.toNat % 2 = 0) (h : BitVec 16) :
    exec (if mode4 then .ibegin4 w h else .ibegin8 w h) s = .next (openImage mode4 w h s) := by
  cases mode4 with
  | false => exact exec_ibegin8 hp hc w h
  | true =>
    have hpass : ¬ (16 < s.count.toNat ∨ w.toNat % 2 = 1) := by have := hm rfl; omega
    exact (exec_ibegin4 hp hc w h).trans (by rw [if_neg hpass])

end

end Sys2Proof.Machine

namespace Sys2Proof.Proofs

open Sys2Proof.Machine

/-- Settles O47: the lanes of a sample are its bytes, and the test of alpha decides. -/
theorem pixelIndexRule : Obligations.PixelIndexRule := by
  intro s r g b a
  obtain ⟨hr, hg, hb, ha⟩ := sample_lanes r g b a
  refine ⟨fun hne => pixelIndex_of_not_opaque (ha.trans_ne hne) s, fun heq => ?_⟩
  rw [pixelIndex_of_opaque (ha.trans heq), hr, hg, hb]

/-- Settles O48: the emptiness check comes before the writes and the header. -/
theorem ibegin8OpensImage : Obligations.Ibegin8OpensImage := by
  intro w h s
  refine ⟨fun hp hc => ?_, fun hp hc => ?_, decode_encode (.ibegin8 w h),
    commandOutsideItsPhaseRaisesSequenceError (.ibegin8 w h) s⟩
  · exact (exec_of_phase (i := .ibegin8 w h) hp rfl).trans (needPalette_of_zero hc)
  · rw [exec_ibegin8 hp hc, ← nimHeader_eq]
    rfl

/-- Settles O49: the emptiness check comes before those of the colour count and the width, and all three before the
writes and the header. -/
theorem ibegin4ChecksAndOpensImage : Obligations.Ibegin4ChecksAndOpensImage := by
  intro w h s
  refine ⟨fun hp hc => ?_, fun hp hc hbad => ?_, fun hp hc hcap hw => ?_, decode_encode (.ibegin4 w h),
    commandOutsideItsPhaseRaisesSequenceError (.ibegin4 w h) s⟩
  · exact (exec_of_phase (i := .ibegin4 w h) hp rfl).trans (needPalette_of_zero hc)
  · rw [exec_ibegin4 hp hc, if_pos hbad]
    rfl
  · rw [exec_ibegin4 hp hc, if_neg (by omega), ← nimHeader_eq]
    rfl

/-- Settles O53: with a zero dimension the opening command leaves the block in `IDLE`, which accepts no pixel. -/
theorem zeroDimensionImageIsItsHeader : Obligations.ZeroDimensionImageIsItsHeader := by
  intro s mode4 w h p hp hc hzero hm
  have hidle : (openImage mode4 w h s).phase = .idle := if_neg fun ⟨hw, hh⟩ => hzero.elim hw hh
  have hpixel : exec (.ipix p) (openImage mode4 w h s) = .next ((openImage mode4 w h s).raise .sequenceError) :=
    commandOutsideItsPhaseRaisesSequenceError (.ipix p) _ (by rw [hidle]; nofun) (by rw [hidle]; nofun)
  exact ⟨_, exec_open hp hc hm h, hidle, by rw [openImage_out, nimHeader_eq], rfl, rfl, rfl, rfl, rfl, hpixel⟩

end Sys2Proof.Proofs
end

section
/-! `IPIX` (42_bitmap.md R143 to R145): what an index does to the open image in each mode. -/

namespace Sys2Proof.Machine

open Sys2Proof.Claims

theorem exec_ipix {s : State} {p : Sample} {idx : Byte} (hp : s.phase = .image) (hidx : pixelIndex s p = some idx) :
    exec (.ipix p) s = .next (codeIndex idx s) := by
  rw [exec_of_phase (i := .ipix p) hp rfl, hidx, reading_some]

theorem State.advance_eq_atNextPixel (s : State) : s.advance = atNextPixel s := by
  unfold atNextPixel
  rcases s.advance_cases with ⟨hrow, ht⟩ | ⟨hrow, hcol, ht⟩ | ⟨hrow, hcol, ht⟩ <;> rw [ht]
  · exact (if_pos hrow).symm
  · rw [if_neg (Nat.not_lt.mpr hrow), if_neg hcol]
    rfl
  · rw [if_neg (Nat.not_lt.mpr hrow), if_pos hcol]
    rfl

/-! ## Index nibbles (30_encoding.md R81) -/

theorem lowNibble_toNat {idx : Byte} (h : idx.toNat ≤ 15) : (lowNibble idx).toNat = idx.toNat := by
  rw [lowNibble, toNat_extract]; omega

theorem setWidth_lowNibble {idx : Byte} (h : idx.toNat ≤ 15) : (lowNibble idx).setWidth 8 = idx := by
  apply BitVec.eq_of_toNat_eq
  rw [BitVec.toNat_setWidth, lowNibble_toNat h]; omega

theorem packNibbles_eq_append (hi lo : BitVec 4) : packNibbles hi lo = hi ++ lo := by
  rw [packNibbles, ← BitVec.setWidth_append_eq_shiftLeft_setWidth_or]; exact BitVec.setWidth_eq _

theorem packNibbles_eq_ofNat (nib : BitVec 4) {idx : Byte} (h : idx.toNat ≤ 15) :
    packNibbles nib (lowNibble idx) = BitVec.ofNat 8 (16 * nib.toNat + idx.toNat) := by
  apply BitVec.eq_of_toNat_eq
  rw [packNibbles_eq_append, toNat_append_add, lowNibble_toNat h, BitVec.toNat_ofNat]; omega

/-! ## An index in each mode -/

section
variable {s : State} {idx : Byte}

theorem codeIndex_byte (hm : s.mode4 = false) : codeIndex idx s = (s.emit [idx]).advance := by
  rcases codeIndex_cases idx s with ⟨-, he⟩ | ⟨hm', -⟩ | ⟨hm', -⟩ | ⟨hm', -⟩
  · exact he
  all_goals exact absurd hm' (by simp [hm])

theorem codeIndex_overflow (hm : s.mode4 = true) (hi : 15 < idx.toNat) : codeIndex idx s = s.raise .rangeError := by
  rcases codeIndex_cases idx s with ⟨hm', -⟩ | ⟨-, -, he⟩ | ⟨-, hle, -⟩ | ⟨-, hle, -⟩
  · exact absurd hm' (by simp [hm])
  · exact he
  all_goals omega

/-- On an even column the index is stashed, on an odd one it is emitted below the stashed one. -/
theorem codeIndex_nibble (hm : s.mode4 = true) (hi : idx.toNat ≤ 15) : codeIndex idx s =
    if s.x.toNat % 2 = 0 then State.advance { s with nib := lowNibble idx }
    else (s.emit [packNibbles s.nib (lowNibble idx)]).advance := by
  rcases codeIndex_cases idx s with ⟨hm', -⟩ | ⟨-, hlt, -⟩ | ⟨-, -, hx, he⟩ | ⟨-, -, hx, he⟩
  · exact absurd hm' (by simp [hm])
  · omega
  · have heven : ¬ s.x.toNat % 2 = 1 := of_decide_eq_false (bit0_eq_decide s.x ▸ hx)
    rw [he, if_pos (by omega)]
  · have hodd : s.x.toNat % 2 = 1 := of_decide_eq_true (bit0_eq_decide s.x ▸ hx)
    rw [he, if_neg (by omega)]

end

end Sys2Proof.Machine

namespace Sys2Proof.Proofs

open Sys2Proof.Machine

/-- Settles O50: in 8-bit mode the index of the pixel, whatever it is, is emitted before the position moves. -/
theorem ipixEmitsIndexByte : Obligations.IpixEmitsIndexByte := by
  intro p s
  refine ⟨fun hp hm hw => ?_, decode_encode (.ipix p), commandOutsideItsPhaseRaisesSequenceError (.ipix p) s⟩
  obtain ⟨idx, hidx⟩ := pixelIndex_exists s p hw
  refine ⟨idx, hidx, ?_⟩
  rw [exec_ipix hp hidx, codeIndex_byte hm, State.advance_eq_atNextPixel]
  rfl

/-- Settles O51: the range check comes before the two columns of the nibble packer. -/
theorem ipixPacksIndexNibbles : Obligations.IpixPacksIndexNibbles := by
  intro p s hp hm hw
  obtain ⟨idx, hidx⟩ := pixelIndex_exists s p hw
  refine ⟨idx, hidx, fun hi => ?_, fun hi hx => ?_, fun hi hx => ?_⟩ <;> rw [exec_ipix hp hidx]
  · rw [codeIndex_overflow hm hi]
    rfl
  · have hnib : lowNibble idx = BitVec.ofNat 4 idx.toNat :=
      BitVec.eq_of_toNat_eq (by rw [lowNibble_toNat hi, BitVec.toNat_ofNat]; omega)
    rw [codeIndex_nibble hm hi, if_pos hx, State.advance_eq_atNextPixel, hnib]
  · rw [codeIndex_nibble hm hi, if_neg (by omega), State.advance_eq_atNextPixel, packNibbles_eq_ofNat _ hi]
    rfl

end Sys2Proof.Proofs
end

section
/-! A whole image (42_bitmap.md R146, R147): the pixel by pixel run against `nim_encode`. -/

namespace Sys2Proof.Machine

/-! ## The indices of the pixels -/

theorem pixelIndices_cons_eq_some {s : State} {p : Sample} {ps : List Sample} {is : List Byte}
    (h : pixelIndices s (p :: ps) = some is) :
    ∃ i js, pixelIndex s p = some i ∧ pixelIndices s ps = some js ∧ is = i :: js := by
  simp only [pixelIndices] at h
  split at h
  · next i js hi hjs => exact ⟨i, js, hi, hjs, (Option.some.inj h).symm⟩
  · cases h

theorem pixelIndices_congr {s t : State} (h : ∀ p, pixelIndex t p = pixelIndex s p) (ps : List Sample) :
    pixelIndices t ps = pixelIndices s ps := by
  induction ps with
  | nil => rfl
  | cons p ps ih => simp only [pixelIndices, h, ih]

theorem pixelIndices_openImage (mode4 : Bool) (w h : BitVec 16) (s : State) (ps : List Sample) :
    pixelIndices (openImage mode4 w h s) ps = pixelIndices s ps :=
  pixelIndices_congr (t := openImage mode4 w h s) (fun p => pixelIndex_congr s _ p rfl rfl fun _ _ => rfl) ps

theorem pixelIndices_exists {s : State} (hw : s.PaletteWritten) (ps : List Sample) :
    ∃ is, pixelIndices s ps = some is ∧ is.length = ps.length := by
  induction ps with
  | nil => exact ⟨[], rfl, rfl⟩
  | cons p ps ih =>
    obtain ⟨i, hi⟩ := pixelIndex_exists s p (.inl hw)
    obtain ⟨is, his, hlen⟩ := ih
    exact ⟨i :: is, by simp only [pixelIndices, hi, his], congrArg (· + 1) hlen⟩

theorem exists_pixel_of_mem_pixelIndices {s : State} {ps : List Sample} {is : List Byte}
    (h : pixelIndices s ps = some is) {i : Byte} (hi : i ∈ is) : ∃ p ∈ ps, pixelIndex s p = some i := by
  induction ps generalizing is with
  | nil => cases h; cases hi
  | cons p ps ih =>
    obtain ⟨j, js, hj, hjs, rfl⟩ := pixelIndices_cons_eq_some h
    rcases List.mem_cons.mp hi with rfl | hi
    · exact ⟨p, List.mem_cons_self, hj⟩
    · obtain ⟨q, hq, hqi⟩ := ih hjs hi
      exact ⟨q, List.mem_cons_of_mem p hq, hqi⟩

/-- The search over a palette that is not empty answers the index of an entry (R97, R98). -/
theorem nearest_lt_count {s : State} {r g b x : Byte} (h1 : 1 ≤ s.count.toNat) (h2 : s.count.toNat ≤ 256)
    (hw : s.PaletteWritten) (h : nearest s r g b = some x) : x.toNat < s.count.toNat := by
  by_cases hcand : Claims.HasCandidate s
  · obtain ⟨c, hc⟩ := nearest_lowestCandidate h2 hw hcand h
    exact hc.lt_count
  · rw [nearest_of_no_candidate hcand] at h
    cases h
    exact h1

/-- With at most 16 colours an index fits a nibble, unless it is a `TRANS` that does not (70_reset_and_hazards.md
R201). -/
theorem pixelIndex_le_of_count_le {s : State} {p : Sample} {i : Byte} (h1 : 1 ≤ s.count.toNat)
    (hcap : s.count.toNat ≤ 16) (hw : s.PaletteWritten) (htrans : sampleA p ≠ 255#8 → s.trans.toNat ≤ 15)
    (h : pixelIndex s p = some i) : i.toNat ≤ 15 := by
  by_cases ha : sampleA p = 255#8
  · rw [pixelIndex_of_opaque ha] at h
    have hlt := nearest_lt_count h1 (by omega) hw h
    omega
  · rw [pixelIndex_of_not_opaque ha] at h
    exact Option.some.inj h ▸ htrans ha

/-! ## The position (R145, R146) -/

theorem State.advance_moves (s : State) :
    s.advance = { s with phase := s.advance.phase, x := s.advance.x, y := s.advance.y } := by
  unfold State.advance; split <;> rfl

theorem succ_toNat_eq {a b : BitVec 16} (h : a.toNat < b.toNat) : (a + 1#16).toNat = a.toNat + 1 := by bv_omega

/-- Along a row of even width, and from its last column to the next row, odd and even columns alternate. -/
theorem State.advance_x_mod_two {s : State} (hw : s.w.toNat % 2 = 0) (hx : s.x.toNat < s.w.toNat) :
    s.advance.x.toNat % 2 = (s.x.toNat + 1) % 2 := by
  rw [State.advance_x]
  split
  · rw [succ_toNat_eq hx]
  · have hzero : (0 : BitVec 16).toNat = 0 := rfl
    omega

/-- `PixelsLeft n s`: of the image of `s`, `n` pixels in row order have still to come, and without any it is closed. -/
structure PixelsLeft (n : Nat) (s : State) : Prop where
  phase : s.phase = if n = 0 then .idle else .image
  x_lt : s.x.toNat < s.w.toNat
  position : s.y.toNat * s.w.toNat + s.x.toNat + n = s.h.toNat * s.w.toNat

theorem PixelsLeft.phase_image {n : Nat} {s : State} (h : PixelsLeft (n + 1) s) : s.phase = .image := h.phase

theorem PixelsLeft.y_lt {n : Nat} {s : State} (h : PixelsLeft (n + 1) s) : s.y.toNat < s.h.toNat :=
  Nat.lt_of_mul_lt_mul_right (a := s.w.toNat) (by have := h.position; omega)

/-- A whole number of rows ends at a row's first column. -/
theorem column_eq_zero {y x w h : Nat} (hx : x < w) (heq : y * w + x = h * w) : x = 0 := by
  have hmod := congrArg (· % w) heq
  simpa [Nat.mod_eq_of_lt hx] using hmod

/-- Past the last pixel the position is the first column of the row below the image. -/
theorem PixelsLeft.closed {s : State} (h : PixelsLeft 0 s) : s.phase = .idle ∧ s.x = 0 ∧ s.y = s.h := by
  have hx : s.x.toNat = 0 := column_eq_zero h.x_lt h.position
  have hrows : s.y.toNat * s.w.toNat = s.h.toNat * s.w.toNat := by have := h.position; omega
  have hy : s.y.toNat = s.h.toNat := Nat.eq_of_mul_eq_mul_right (Nat.zero_lt_of_lt h.x_lt) hrows
  exact ⟨h.phase, BitVec.eq_of_toNat_eq hx, BitVec.eq_of_toNat_eq hy⟩

/-- The move past a pixel leaves one pixel less. -/
theorem PixelsLeft.advance {n : Nat} {s : State} (h : PixelsLeft (n + 1) s) : PixelsLeft n s.advance := by
  have hx := h.x_lt
  have hpos := h.position
  have hw : 0 < s.w.toNat := by omega
  have hysucc : (s.y + 1#16).toNat = s.y.toNat + 1 := succ_toNat_eq h.y_lt
  have hrow : (s.y.toNat + 1) * s.w.toNat = s.y.toNat * s.w.toNat + s.w.toNat := Nat.succ_mul _ _
  have hnext (hend : s.w.toNat ≤ s.x.toNat + 1) :
      (s.y + 1#16).toNat * s.w.toNat + (0#16).toNat + n = s.h.toNat * s.w.toNat := by
    rw [hysucc, hrow, BitVec.toNat_ofNat]; omega
  rcases s.advance_cases with ⟨hlt, ht⟩ | ⟨hend, hlast, ht⟩ | ⟨hend, hlast, ht⟩ <;> rw [ht]
  · have hxsucc : (s.x + 1#16).toNat = s.x.toNat + 1 := succ_toNat_eq hx
    have hn : n ≠ 0 := by
      rintro rfl
      exact absurd (column_eq_zero hlt (by omega)) (Nat.succ_ne_zero _)
    have hcolumn : s.y.toNat * s.w.toNat + (s.x + 1#16).toNat + n = s.h.toNat * s.w.toNat := by omega
    exact ⟨by rw [if_neg hn]; exact h.phase, hxsucc.trans_lt hlt, hcolumn⟩
  · have hn : n ≠ 0 := by
      rintro rfl
      exact hlast (hysucc.symm.trans (Nat.eq_of_mul_eq_mul_right hw (hnext hend)))
    exact ⟨by rw [if_neg hn]; exact h.phase, hw, hnext hend⟩
  · have hn : n = 0 := by
      have hall := hnext hend
      rw [hysucc, hlast, BitVec.toNat_ofNat] at hall
      omega
    exact ⟨by rw [if_pos hn], hw, hnext hend⟩

/-! ## The bytes -/

/-- The bytes of a list of indices, in either mode (R147). -/
def indexBytes (mode4 : Bool) (is : List Byte) : List Byte := if mode4 then packPairs is else is

theorem nimEncode_eq (mode4 : Bool) (w h : BitVec 16) (is : List Byte) :
    nimEncode mode4 w h is = nimHeader w h ++ indexBytes mode4 is := rfl

theorem indexBytes_nil (mode4 : Bool) : indexBytes mode4 [] = [] := by cases mode4 <;> rfl

theorem packPairs_length (is : List Byte) : (packPairs is).length = is.length / 2 := by
  induction is using packPairs.induct with
  | case1 hi lo rest ih => simp only [packPairs, List.length_cons, ih]; omega
  | case2 is h =>
    match is with
    | [] => rfl
    | [i] => simp [packPairs]
    | hi :: lo :: rest => exact absurd rfl (h hi lo rest)

theorem indexBytes_length (mode4 : Bool) (is : List Byte) :
    (indexBytes mode4 is).length = if mode4 then is.length / 2 else is.length := by
  cases mode4 with
  | false => rfl
  | true => exact packPairs_length is

/-- The length of an image (R147), its width even in 4-bit mode. -/
theorem nimEncode_length {mode4 : Bool} {w h : BitVec 16} {is : List Byte} (hlen : is.length = w.toNat * h.toNat)
    (hw : mode4 = true → w.toNat % 2 = 0) : (nimEncode mode4 w h is).length =
      8 + (if mode4 then w.toNat / 2 * h.toNat else w.toNat * h.toNat) := by
  have hheader : (nimHeader w h).length = 8 := rfl
  rw [nimEncode_eq, List.length_append, hheader, indexBytes_length, hlen]
  cases mode4 with
  | false => rfl
  | true => simp only [if_true, Nat.div_mul_right_comm (Nat.dvd_of_mod_eq_zero (hw rfl))]

/-- The indices coded already whose byte has not been emitted: on an odd column in 4-bit mode the stashed one. -/
def stash (s : State) : List Byte := if s.mode4 = true ∧ s.x.toNat % 2 = 1 then [s.nib.setWidth 8] else []

theorem stash_of_byte {s : State} (h : s.mode4 = false) : stash s = [] := by simp [stash, h]

theorem stash_of_even {s : State} (h : s.x.toNat % 2 = 0) : stash s = [] := by simp [stash, h]

theorem stash_of_odd {s : State} (hm : s.mode4 = true) (h : s.x.toNat % 2 = 1) : stash s = [s.nib.setWidth 8] :=
  if_pos ⟨hm, h⟩

/-- `Coded s is t`: the indices `is` have been coded, so that what is emitted and what is stashed of them are together
what `nim_encode` gives, whatever indices come after; the palette, the image and `ERR` are as before. -/
structure Coded (s : State) (is : List Byte) (t : State) : Prop where
  bytes : ∀ rest : List Byte,
    t.out ++ indexBytes t.mode4 (stash t ++ rest) = s.out ++ indexBytes s.mode4 (stash s ++ (is ++ rest))
  kept : t = { s with phase := t.phase, x := t.x, y := t.y, nib := t.nib, out := t.out }

theorem Coded.nil (s : State) : Coded s [] s := ⟨fun _ => rfl, rfl⟩

theorem Coded.cons {s t u : State} {i : Byte} {is : List Byte} (h : Coded s [i] t) (h' : Coded t is u) :
    Coded s (i :: is) u where
  bytes rest := (h'.bytes rest).trans (h.bytes (is ++ rest))
  kept := by rw [h'.kept, h.kept]

theorem Coded.pixelIndex {s t : State} {is : List Byte} (h : Coded s is t) (p : Sample) :
    pixelIndex t p = pixelIndex s p := by
  rw [h.kept]; rfl

section
variable {s t : State} {is : List Byte} (hc : Coded s is t)
include hc

theorem Coded.err : t.err = s.err := by rw [hc.kept]
theorem Coded.pal : t.pal = s.pal := by rw [hc.kept]
theorem Coded.count : t.count = s.count := by rw [hc.kept]
theorem Coded.trans : t.trans = s.trans := by rw [hc.kept]
theorem Coded.w : t.w = s.w := by rw [hc.kept]
theorem Coded.h : t.h = s.h := by rw [hc.kept]
theorem Coded.mode4 : t.mode4 = s.mode4 := by rw [hc.kept]

/-- From even column to even column nothing is stashed before or after. -/
theorem Coded.out (hs : s.x.toNat % 2 = 0) (ht : t.x.toNat % 2 = 0) : t.out = s.out ++ indexBytes s.mode4 is := by
  have hbytes := hc.bytes []
  rwa [stash_of_even hs, stash_of_even ht, List.nil_append, List.nil_append, List.append_nil, indexBytes_nil,
    List.append_nil] at hbytes

end

/-- Coding one index: emitted, stashed, or emitted below the stashed one. -/
theorem coded_codeIndex {s : State} {i : Byte} (hx : s.x.toNat < s.w.toNat)
    (hm : s.mode4 = true → s.w.toNat % 2 = 0 ∧ i.toNat ≤ 15) : Coded s [i] (codeIndex i s) := by
  cases hmode : s.mode4 with
  | false =>
    rw [codeIndex_byte hmode]
    refine ⟨fun rest => ?_, by rw [State.advance_moves]; rfl⟩
    rw [stash_of_byte hmode, stash_of_byte (by simpa using hmode)]
    simp [hmode, indexBytes]
  | true =>
    obtain ⟨hw, hi⟩ := hm hmode
    rw [codeIndex_nibble hmode hi]
    split
    case isTrue heven =>
      refine ⟨fun rest => ?_, by rw [State.advance_moves]⟩
      have hcolumn : (State.advance { s with nib := lowNibble i }).x.toNat % 2 = (s.x.toNat + 1) % 2 :=
        State.advance_x_mod_two hw hx
      rw [stash_of_even heven, stash_of_odd (by simpa using hmode) (by omega)]
      simp [setWidth_lowNibble hi]
    case isFalse hodd =>
      refine ⟨fun rest => ?_, by rw [State.advance_moves]; rfl⟩
      have hcolumn : (s.emit [packNibbles s.nib (lowNibble i)]).advance.x.toNat % 2 = (s.x.toNat + 1) % 2 :=
        State.advance_x_mod_two hw hx
      rw [stash_of_odd hmode (by omega), stash_of_even (by omega)]
      simp [hmode, indexBytes, packPairs, packNibbles, setWidth_lowNibble hi]

/-! ## The run -/

theorem PixelsLeft.codeIndex {n : Nat} {s : State} {i : Byte} (h : PixelsLeft (n + 1) s)
    (hi : s.mode4 = true → i.toNat ≤ 15) : PixelsLeft n (codeIndex i s) := by
  cases hm : s.mode4 with
  | false =>
    rw [codeIndex_byte hm]
    exact PixelsLeft.advance ⟨h.phase, h.x_lt, h.position⟩
  | true =>
    rw [codeIndex_nibble hm (hi hm)]
    split <;> exact PixelsLeft.advance ⟨h.phase, h.x_lt, h.position⟩

/-- The pixels that an image still wants code their indices one by one, and close it. -/
theorem runEvents_ipix {ps : List Sample} {s : State} {is : List Byte} (h : PixelsLeft ps.length s)
    (hidx : pixelIndices s ps = some is) (hm : s.mode4 = true → s.w.toNat % 2 = 0 ∧ ∀ i ∈ is, i.toNat ≤ 15) :
    ∃ t, runEvents (ps.map fun p => command (.ipix p)) s = .next t ∧ PixelsLeft 0 t ∧ Coded s is t := by
  induction ps generalizing s is with
  | nil => cases hidx; exact ⟨s, rfl, h, .nil s⟩
  | cons p ps ih =>
    obtain ⟨i, js, hi, hjs, rfl⟩ := pixelIndices_cons_eq_some hidx
    have hfit : s.mode4 = true → s.w.toNat % 2 = 0 ∧ i.toNat ≤ 15 := fun hmode =>
      ⟨(hm hmode).1, (hm hmode).2 i List.mem_cons_self⟩
    have hcoded : Coded s [i] (codeIndex i s) := coded_codeIndex h.x_lt hfit
    obtain ⟨t, hrun, hclosed, hrest⟩ := ih (h.codeIndex fun hmode => (hfit hmode).2)
      ((pixelIndices_congr hcoded.pixelIndex ps).trans hjs) fun hmode => by
        obtain ⟨heven, hle⟩ := hm (hcoded.mode4.symm.trans hmode)
        exact ⟨hcoded.w ▸ heven, fun j hj => hle j (List.mem_cons_of_mem i hj)⟩
    exact ⟨t, (runEvents_command (exec_ipix h.phase_image hi) _).trans hrun, hclosed, hcoded.cons hrest⟩

/-- An image that is opened wants all its pixels. -/
theorem openImage_pixelsLeft {w h : BitVec 16} (hw : w ≠ 0) (hh : h ≠ 0) {n : Nat} (hn : n = w.toNat * h.toNat)
    (mode4 : Bool) (s : State) : PixelsLeft n (openImage mode4 w h s) where
  phase := by
    have hwpos : 0 < w.toNat := by bv_omega
    have hhpos : 0 < h.toNat := by bv_omega
    rw [openImage_phase, if_pos ⟨hw, hh⟩, if_neg (hn ▸ (Nat.mul_pos hwpos hhpos).ne')]
  x_lt := show 0 < w.toNat by bv_omega
  position := by
    rw [hn, Nat.mul_comm w.toNat]
    exact (congrArg (· + _) (Nat.zero_mul _)).trans (Nat.zero_add _)

end Sys2Proof.Machine

namespace Sys2Proof.Proofs

open Sys2Proof.Machine

/-- Settles O52: the opening command emits the header, and the pixels the coded indices, by induction on the pixels. -/
theorem imageRunEmitsNimEncoding : Obligations.ImageRunEmitsNimEncoding := by
  intro s mode4 w h px hp h1 h2 hwritten hw hh hlen hm
  obtain ⟨is, his, hislen⟩ := pixelIndices_exists hwritten px
  have hopen := exec_open hp (count_ne_zero_of_lt h1) (fun hmode => ⟨(hm hmode).1, (hm hmode).2.1⟩) h
  have hfit : mode4 = true → w.toNat % 2 = 0 ∧ ∀ i ∈ is, i.toNat ≤ 15 := fun hmode => by
    obtain ⟨hcap, heven, htrans⟩ := hm hmode
    refine ⟨heven, fun i hi => ?_⟩
    obtain ⟨p, hpx, hpi⟩ := exists_pixel_of_mem_pixelIndices his hi
    exact pixelIndex_le_of_count_le h1 hcap hwritten (htrans p hpx) hpi
  obtain ⟨t, hrun, hleft, hcoded⟩ := runEvents_ipix (openImage_pixelsLeft hw hh hlen mode4 s)
    ((pixelIndices_openImage mode4 w h s px).trans his) hfit
  obtain ⟨hidle, hx, hy⟩ := hleft.closed
  have hout : t.out = s.out ++ nimHeader w h ++ indexBytes mode4 is := hcoded.out rfl (by rw [hx]; rfl)
  refine ⟨is, t, his, (runEvents_command hopen _).trans hrun, ?_, ?_, hidle, hcoded.err, hcoded.pal, hcoded.count,
    hcoded.trans, hx, hy.trans hcoded.h⟩
  · rw [hout, nimEncode_eq, List.append_assoc]
  · exact nimEncode_length (hislen.trans hlen) fun hmode => (hfit hmode).1

end Sys2Proof.Proofs
end

section
/-! Faults (60_exceptions.md): what a word does in `HALT`, and which kinds it raises outside it. -/

namespace Sys2Proof.Machine

/-! ## In `HALT` (R165) -/

theorem runWord_of_halt {s : State} (h : s.phase = .halt) (cw : CommandWord) : runWord cw s = .next s := by
  cases hd : decode cw with
  | ok i => exact (runWord_of_ok hd).trans (exec_of_halt h i)
  | error r => exact (runWord_of_error hd).trans (if_pos h)

theorem runEnd_of_halt {s : State} (h : s.phase = .halt) : runEnd s = .failed := by simp [runEnd, h]

/-! ## Outside `HALT` (R160 to R164) -/

/-- The kinds that the block raises; the other two of R161 are the host's. -/
inductive BlockRaises : ErrKind → Prop
  | parameterError : BlockRaises .parameterError
  | paletteFormatError : BlockRaises .paletteFormatError
  | constraintError : BlockRaises .constraintError
  | sequenceError : BlockRaises .sequenceError
  | rangeError : BlockRaises .rangeError

/-- A fault taken in `s` leaves `t`: `ERR` holds a kind that the block raises, `PHASE` is `HALT`, and the rest is as it
was (R164). -/
def FaultTaken (s t : State) : Prop := ∃ k, BlockRaises k ∧ t = s.raise k

/-- Outside `HALT` the phase check raises `SequenceError` or leaves the rest to the command's own tests. -/
theorem Ran.faultTaken_or {p : Phase} {s t : State} {own : Prop} (h : Ran p s t own) (hs : s.phase ≠ .halt)
    (hown : s.phase = p → own → FaultTaken s t ∨ t.phase ≠ .halt) : FaultTaken s t ∨ t.phase ≠ .halt := by
  rcases h with ⟨hhalt, -⟩ | ⟨-, -, ht⟩ | ⟨hp, ho⟩
  · exact absurd hhalt hs
  · exact .inl ⟨_, .sequenceError, ht⟩
  · exact hown hp ho

theorem codeIndex_faultTaken_or {s : State} (hs : s.phase ≠ .halt) (idx : Byte) :
    FaultTaken s (codeIndex idx s) ∨ (codeIndex idx s).phase ≠ .halt := by
  rcases codeIndex_cases idx s with ⟨-, he⟩ | ⟨-, -, he⟩ | ⟨-, -, -, he⟩ | ⟨-, -, -, he⟩
  · exact .inr (he ▸ State.advance_phase_ne_halt hs)
  · exact .inl ⟨_, .rangeError, he⟩
  · exact .inr (he ▸ State.advance_phase_ne_halt hs)
  · exact .inr (he ▸ State.advance_phase_ne_halt hs)

/-- A command enters `HALT` only by a fault of a kind that the block raises: each fault of each command is named. -/
theorem exec_faultTaken_or {i : Instr} {s t : State} (hs : s.phase ≠ .halt) (h : exec i s = .next t) :
    FaultTaken s t ∨ t.phase ≠ .halt := by
  cases i with
  | qred3 b => exact (execQred3_next h).faultTaken_or hs fun _ ht => .inr (ht ▸ hs)
  | qred2 b => exact (execQred2_next h).faultTaken_or hs fun _ ht => .inr (ht ▸ hs)
  | qnear r g b =>
    refine (execQnear_next h).faultTaken_or hs ?_
    rintro - (⟨-, ht⟩ | ⟨-, x, -, rfl⟩)
    exacts [.inl ⟨_, .paletteFormatError, ht⟩, .inr hs]
  | pdef => exact (execPdef_next h).faultTaken_or hs fun _ ht => .inr (ht ▸ hs)
  | pldnip => exact (execPldnip_next h).faultTaken_or hs fun _ ht => .inr (ht ▸ nofun)
  | din b =>
    exact (execDin_next h).faultTaken_or hs fun hp hb => .inr ((loadByte_completes hb).phase_ne_halt hp)
  | pbegin n =>
    refine (execPbegin_next h).faultTaken_or hs ?_
    rintro - (⟨-, ht⟩ | ⟨-, rfl⟩)
    exacts [.inl ⟨_, .paletteFormatError, ht⟩, .inr nofun]
  | padd r g b =>
    refine (execPadd_next h).faultTaken_or hs ?_
    rintro - (⟨-, ht⟩ | ⟨-, -, rfl⟩)
    exacts [.inl ⟨_, .sequenceError, ht⟩, .inr hs]
  | pend => exact (execPend_next h).faultTaken_or hs fun _ ht => .inr (ht ▸ nofun)
  | pstnip x =>
    refine (execPstnip_next h).faultTaken_or hs ?_
    rintro - (⟨-, ht⟩ | ⟨-, cs, -, rfl⟩)
    exacts [.inl ⟨_, .paletteFormatError, ht⟩, .inr hs]
  | pget k =>
    refine (execPget_next h).faultTaken_or hs ?_
    rintro - (⟨-, ht⟩ | ⟨-, c, -, rfl⟩)
    exacts [.inl ⟨_, .rangeError, ht⟩, .inr hs]
  | tset v => exact (execTset_next h).faultTaken_or hs fun _ ht => .inr (ht ▸ hs)
  | ibegin8 w h' =>
    refine (execIbegin8_next h).faultTaken_or hs ?_
    rintro hp (⟨-, ht⟩ | ⟨hc, rfl⟩)
    exacts [.inl ⟨_, .paletteFormatError, ht⟩, .inr ((Completes.ibegin8 w h' hc).phase_ne_halt hp)]
  | ibegin4 w h' =>
    refine (execIbegin4_next h).faultTaken_or hs ?_
    rintro hp (⟨-, ht⟩ | ⟨-, -, ht⟩ | ⟨hc, hcap, hw, rfl⟩)
    exacts [.inl ⟨_, .paletteFormatError, ht⟩, .inl ⟨_, .constraintError, ht⟩,
      .inr ((Completes.ibegin4 w h' hc hcap hw).phase_ne_halt hp)]
  | ipix p =>
    refine (execIpix_next h).faultTaken_or hs ?_
    rintro - ⟨idx, -, rfl⟩
    exact codeIndex_faultTaken_or hs idx

theorem Completes.err_eq {i : Instr} {s t : State} (hc : Completes s i t) : t.err = s.err := by
  cases hc with
  | ipixByte | ipixHigh | ipixLow => exact State.advance_err _
  | _ => rfl

/-- All that a word can do outside `HALT`: complete, or fault. -/
theorem runWord_next {cw : CommandWord} {s t : State} (hs : s.phase ≠ .halt) (h : runWord cw s = .next t) :
    (t.phase ≠ .halt ∧ t.err = s.err) ∨ FaultTaken s t := by
  cases hd : decode cw with
  | error r =>
    rcases illegalWord_next ((runWord_of_error hd).symm.trans h) with ⟨hhalt, -⟩ | ⟨-, ht⟩
    · exact absurd hhalt hs
    · exact .inr ⟨_, .parameterError, ht⟩
  | ok i =>
    have hexec : exec i s = .next t := (runWord_of_ok hd).symm.trans h
    rcases exec_next hexec with ⟨hhalt, -⟩ | ⟨-, k, rfl⟩ | ⟨hp, hc⟩
    · exact absurd hhalt hs
    · exact .inr ((exec_faultTaken_or hs hexec).resolve_right (· rfl))
    · exact .inl ⟨hc.phase_ne_halt hp, hc.err_eq⟩

end Sys2Proof.Machine

namespace Sys2Proof.Proofs

open Sys2Proof.Machine

/-- Settles O8: a step takes the next event from the port, and there is none. -/
theorem emptyPortWaits : Obligations.EmptyPortWaits := fun _ => step_nil

/-- Settles O13: in `HALT` a word is consumed and ignored, whether or not it decodes. -/
theorem haltIgnoresEveryWord : Obligations.HaltIgnoresEveryWord := fun s cw rest hp hport =>
  ⟨(step_cons hport).trans (runWord_of_halt (s := { s with port := rest }) hp cw), runEnd_of_halt hp⟩

/-- Settles O14: an illegal word faults; a command faults with one of the kinds that the block raises, or completes. -/
theorem wordsCompleteOrFaultPrecisely : Obligations.WordsCompleteOrFaultPrecisely := by
  intro cw s t hs hr
  refine (runWord_next hs hr).imp_right ?_
  rintro ⟨k, hk, rfl⟩
  cases hk with
  | parameterError => exact .inl rfl
  | paletteFormatError => exact .inr (.inl rfl)
  | constraintError => exact .inr (.inr (.inl rfl))
  | sequenceError => exact .inr (.inr (.inr (.inl rfl)))
  | rangeError => exact .inr (.inr (.inr (.inr rfl)))

/-- Settles O15: in `HALT` a step waits, ignores a word, or performs the reset. -/
theorem onlyResetLeavesHalt : Obligations.OnlyResetLeavesHalt := by
  intro s t hp hr
  cases hport : s.port with
  | nil =>
    cases next_eq ((step_nil hport).symm.trans hr)
    exact .inl ⟨hp, rfl⟩
  | cons e rest =>
    cases e with
    | command cw =>
      obtain ⟨hstep, -⟩ := haltIgnoresEveryWord s cw rest hp hport
      cases next_eq (hstep.symm.trans hr)
      exact .inl ⟨hp, rfl⟩
    | reset =>
      have hstep : step s = .next (State.assertReset { s with port := rest }) := step_cons hport
      cases next_eq (hstep.symm.trans hr)
      exact .inr ⟨rest, rfl, rfl, rfl⟩

end Sys2Proof.Proofs
end

section
/-! The reset input as a step, and the values that reset leaves (70_reset_and_hazards.md R190, R191). -/

namespace Sys2Proof.Machine

/-- The reset input is taken from the port and performed, in every phase. -/
theorem step_reset {s : State} {rest : List HostEvent} (h : s.port = .reset :: rest) :
    step s = .next (State.assertReset { s with port := rest }) := step_cons h

end Sys2Proof.Machine

namespace Sys2Proof.Proofs

open Sys2Proof.Machine

/-- Settles O10: the numbers kind by kind; the status outputs and the reset values by the definitions. -/
theorem resetRegisterValues : Obligations.ResetRegisterValues := by
  refine ⟨fun p => ?phase, fun e => ?err, fun l => ?lds, fun _ => rfl, rfl, rfl, rfl, rfl, rfl, rfl, rfl⟩
  case phase => cases p <;> rfl
  case err =>
    cases e with
    | none => rfl
    | some k => cases k <;> rfl
  case lds => cases l <;> rfl

/-- Settles O11: the state that the reset input leaves is the one written out, whatever the phase before. -/
theorem resetInputRestoresResetState : Obligations.ResetInputRestoresResetState := fun _ _ => step_reset

end Sys2Proof.Proofs
end

section
/-! Words of the test vectors V-E2 and V-F1 (30_encoding.md R60 to R65). -/

namespace Sys2Proof.Proofs

/-- Bit 1 of a `PSTNIP` word is reserved (30_encoding.md R61, R65). -/
theorem decode_pstnip_reservedBit : decode 0x1600000002 = .error .reservedBitSet :=
  show readFlag 0x2 .pstnip = _ from if_neg (by decide)

/-- The opcode after `TSET` is none of the fifteen (30_encoding.md R63, R64). -/
theorem decode_opcode_after_tset : decode 0x1900000000 = .error .undefinedOpcode := rfl

/-- Settles O5: each of the nine words is its command's own word, as `encode` computes it, so it decodes to the command
by `decode_encode`; the two words that no command has are rejected by the reserved bit and by the opcode. -/
theorem sampleWordsDecode : Obligations.SampleWordsDecode :=
  ⟨decode_encode (.qred3 200), decode_encode (.qnear 200 100 50), decode_encode .pdef, decode_encode (.din 0x4E),
    decode_encode (.pbegin 256), decode_encode (.padd 200 100 50), decode_encode (.pstnip true),
    decode_encode (.ibegin8 300 2), decode_encode (.ipix 0x0038220C), decode_pstnip_reservedBit,
    decode_opcode_after_tset⟩

end Sys2Proof.Proofs
end
